-- ==== Sys2Proof/Word.lean ====
section
/-! DEFINITION. The two data widths of the core (00_scope.md R7, 10_state.md R21, R22, R24, R26). -/

namespace Sys2Proof

/-- A cell value: 16 bits, [0, 65535] (R7); memory cells, registers, stack entries, the cursor and
every word of an instruction hold one (D1). -/
abbrev Cell := BitVec 16

/-- A Word: "unsigned integer in [0,32767]" (R7, R11), the range of literals and of ALU results. -/
abbrev Word := BitVec 15

end Sys2Proof
end

