-- ==== Sys2Proof/Config.lean ====
section
/-! DEFINITION. What is fixed for a run (00_scope.md R5, R6), and the one free value of the model:
the operator's lines (93_implementation_defined.md U7). -/

namespace Sys2Proof

/-- The configuration parameters of R6, with their defaults; `none` is "unbounded". -/
structure Cfg where
  /-- `REWIND_ENABLE`: true is the checkpoint-capable configuration. -/
  rewindEnable : Bool := true
  /-- `STACK_DEPTH`. -/
  stackDepth   : Option Nat := none
  /-- `HISTORY_DEPTH`. -/
  historyDepth : Option Nat := none
  deriving DecidableEq, Repr

/-- The memory size in cells (R5). -/
abbrev Config.memSize : Nat := 32768

/-- The newline code appended to each input line (R5, D20). -/
abbrev Config.newline : Cell := 10

/-- FREE VALUE (U7, R239; log 6): what the interactive operator does when the host asks it for the
n-th time: no answer yet (`none`), or a line of Words. It has no body a proof could use, so whatever
is proved holds for every operator, the one that never answers among them. -/
opaque Config.operatorLine : Nat → Option (List Word)

end Sys2Proof
end

