-- ==== Sys2Proof/Machine/State.lean ====
section
/-! DEFINITION. The state of the core as plain data (10_state.md), the reasons a run stops, the
outcomes that are no next state, and the state after reset. -/

namespace Sys2Proof.Machine

/-- Memory (R21): the cells whose value is not 0, by rising address, as (address, cell) pairs. An
unlisted cell reads 0. The unit is the 16-bit cell, the smallest the core addresses (R61, R63;
log 1). -/
abbrev Memory := List (Nat × Cell)

/-- The eight general registers R0..R7 (R22). -/
abbrev Regs := Vector Cell 8

/-- The stop causes of R41 (code 0, `NONE`, is no cause: the run has not stopped). -/
inductive Cause where
  | halted | returnedEmpty | exited
  | decodeError | invalidOperand | invalidDestination | operandFetchOutOfRange
  | stackUnderflow | stackOverflow | arithmeticError | addressOutOfRange
  | voluntaryAbort | historyExhausted | historyOverflow
  deriving DecidableEq, Repr

/-- The run state (R35). -/
inductive RunState where
  /-- `RUNNING`. -/
  | running
  /-- `AWAIT_LINE(d)`: the IN with destination register `d` waits for a line. -/
  | awaitLine (d : Fin 8)
  /-- `STOPPED(cause)`: final. -/
  | stopped (cause : Cause)
  deriving DecidableEq, Repr

/-- A snapshot: a copy of the whole Machine State (R33). -/
structure Snapshot where
  pc     : Cell
  mem    : Memory
  reg    : Regs
  stack  : List Cell
  outBuf : List Cell
  inQ    : List Cell
  deriving DecidableEq, Repr

/-- One transaction on a port of R4 (log 3). -/
inductive PortEvent where
  /-- `FLUSH`: the codes sent to the console. -/
  | flush (codes : List Cell)
  /-- `LINE_REQ`: the core asks for one line. -/
  | lineReq
  /-- `LINE`: the line the host delivered. -/
  | line (codes : List Cell)
  deriving DecidableEq, Repr

/-- The state: the Machine State of R20 (first six fields), the controller state of R20 and the
stored fields of STATUS (next four), and what R43 keeps outside the core but a step reads or writes
(last four). -/
structure State where
  pc        : Cell
  mem       : Memory
  regs      : Regs
  /-- The call stack; its last entry is the top (R26, R28). -/
  stack     : List Cell
  outBuf    : List Cell
  inQ       : List Cell
  /-- The snapshot history; its last element is the most recent (R34). -/
  history   : List Snapshot
  runState  : RunState
  /-- `FAULT_PC` (R40). -/
  faultPc   : Cell
  /-- `FAULT_WORD` (R40). -/
  faultWord : Cell
  /-- The configuration; no step changes it (R43; log 2). -/
  cfg       : Cfg
  /-- The port transactions so far, oldest first (R4; log 3). -/
  ports     : List PortEvent
  /-- The scripted-command queue of the host (R239; log 6). -/
  script    : List (List Cell)
  /-- The model's own counter: how often the operator has been asked (log 6). -/
  linePolls : Nat
  deriving DecidableEq, Repr

/-- Why there is no next state in a state that the spec gives no step. -/
inductive Fault where
  /-- `step` raises it in `STOPPED(cause)`: "no step leaves it" (R35, U13). Safe: the spec gives no
  step there either. No instruction raises it. -/
  | runStopped (cause : Cause)
  deriving DecidableEq, Repr

/-- What is refused. No instruction's meaning answers one. -/
inductive Refusal where
  /-- `exec` answers it for an instruction that has no meaning yet; none is left. Safe: a stop. -/
  | notModelled (mnemonic : String)
  /-- `deliver` answers it for a line holding a code above 32767: "refused at the port" (R234, U11).
  Safe: the spec gives such a delivery no step. -/
  | lineNotWords
  /-- `deliver` answers it when no request is outstanding: the host "never delivers unasked" (R240,
  R242). Safe: the spec gives such a delivery no step. -/
  | lineUnasked
  deriving DecidableEq, Repr

/-- The state right after reset (R47, R290) with an empty program image, the default configuration
of R6 and an empty script. An image is put in memory by `boot` (Machine/Load.lean). -/
def State.reset : State where
  pc        := 0
  mem       := []
  regs      := Vector.replicate 8 0
  stack     := []
  outBuf    := []
  inQ       := []
  history   := []
  runState  := .running
  faultPc   := 0
  faultWord := 0
  cfg       := {}
  ports     := []
  script    := []
  linePolls := 0

end Sys2Proof.Machine
end

