-- ==== Sys2Proof/Machine/Ops.lean ====
section
/-! DEFINITION. The named operations over memory, registers, call stack, buffers and history, and
the shared way an instruction ends: an effect, or the stop of 60_exceptions.md R254. -/

namespace Sys2Proof.Machine

/-- What a meaning and a step answer. -/
abbrev Result := Host.Outcome State Fault Refusal

/-! ### Memory (10_state.md R21, 20_memory.md) -/

/-- `MemRead(a, 1)` (R8): the cell at an address; an unlisted cell is 0 (R21). -/
def Memory.read : Memory → Nat → Cell
  | [], _             => 0
  | (k, v) :: rest, a => if k = a then v else Memory.read rest a

/-- `MemWrite(a, 1, v)` (R8), keeping the canonical form: writing 0 removes the entry. -/
def Memory.write : Memory → Nat → Cell → Memory
  | [], a, v => if v = 0 then [] else [(a, v)]
  | (k, w) :: rest, a, v =>
    if k < a then (k, w) :: Memory.write rest a v
    else
      let tail := if k = a then rest else (k, w) :: rest
      if v = 0 then tail else (a, v) :: tail

/-- The canonical form: addresses strictly rising, all of them in [0, 32767], and no entry 0. Equal
memories are then equal lists. -/
abbrev Memory.wf (m : Memory) : Prop :=
  m.Pairwise (fun p q => p.1 < q.1) ∧ ∀ p ∈ m, p.1 < Config.memSize ∧ p.2 ≠ 0

/-- Is an address (or the cursor) the address of a cell, [0, 32767] (R60, R61)? -/
def inMemory (a : Cell) : Bool := decide (a.toNat ≤ 32767)

/-- The cell at an address of the live memory. -/
def readMem (s : State) (a : Nat) : Cell := s.mem.read a

/-- Set one cell of the live memory, all 16 bits (R65). -/
def writeMem (s : State) (a : Nat) (v : Cell) : State := { s with mem := s.mem.write a v }

/-! ### Registers and cursor (R22, R24) -/

/-- Read register `Rr` (R8). -/
def readReg (s : State) (r : Fin 8) : Cell := s.regs[r]

/-- Write register `Rr`, all 16 bits (R8). -/
def writeReg (s : State) (r : Fin 8) (v : Cell) : State := { s with regs := s.regs.set r v }

/-- `pc <- target` (R8). A target above 32767 is stored as it is (R127). -/
def jump (s : State) (target : Cell) : State := { s with pc := target }

/-- The fall-through of R127: the cursor moves past an instruction of `len` words. -/
def advance (s : State) (len : Nat) : State := jump s (s.pc + BitVec.ofNat 16 len)

/-! ### What can go wrong inside an instruction (R253, R128) -/

/-- A raised fault: its cause and the information of R253. -/
structure Trap where
  cause : Cause
  info  : Nat
  deriving DecidableEq, Repr

/-- The effect of an instruction before it is settled: a new state, or a raised fault. -/
abbrev Effect := Except Trap State

/-! ### Output (R224) -/

/-- Record a port transaction (R4; log 3). -/
def note (s : State) (e : PortEvent) : State := { s with ports := s.ports ++ [e] }

/-- `Flush()` (R224): one FLUSH transaction that carries the whole Output Buffer; nothing when the
buffer is empty. -/
def flush (s : State) : State :=
  if s.outBuf = [] then s else note { s with outBuf := [] } (.flush s.outBuf)

/-- The codes a transaction puts on the console (R43). -/
def PortEvent.console : PortEvent → List Cell
  | .flush codes => codes
  | .lineReq     => []
  | .line _      => []

/-- The emitted console stream (R43): every code sent on the FLUSH port, in order. -/
def State.emitted (s : State) : List Cell := s.ports.flatMap PortEvent.console

/-! ### The stop of the run: taking a fault (R254) -/

/-- `Stop(cause, info)` (R254). Everything but the Output Buffer and STATUS stays as it is. -/
def stop (s : State) (cause : Cause) (info : Nat) : State :=
  { flush s with
    runState := .stopped cause, faultPc := s.pc, faultWord := BitVec.ofNat 16 info }

/-- `raise F(info)` (R253): the stop, as a next state. -/
def raise (s : State) (t : Trap) : Result := .next (stop s t.cause t.info)

/-- End an instruction that began in `s`: its effect, or the stop applied to `s` itself, so that a
faulting instruction changes nothing else (R128, R257). -/
def settle (s : State) : Effect → Result
  | .ok s'   => .next s'
  | .error t => raise s t

/-! ### The call stack (R27, R28, R29) -/

/-- `Push(v)` (R28). -/
def pushStack (s : State) (v : Cell) : Effect :=
  if s.cfg.stackDepth = some s.stack.length then .error ⟨.stackOverflow, 0⟩
  else .ok { s with stack := s.stack ++ [v] }

/-- `Pop()` (R29): the top entry and the state without it. -/
def popStack (s : State) : Except Trap (Cell × State) :=
  match s.stack.getLast? with
  | none   => .error ⟨.stackUnderflow, 0⟩
  | some v => .ok (v, { s with stack := s.stack.dropLast })

/-- `StackEmpty()` (R27). -/
def stackEmpty (s : State) : Bool := s.stack.isEmpty

/-! ### The checkpoint/rewind controller (R262, R265, R259) -/

/-- The snapshot of the live Machine State (R33). -/
def snapshot (s : State) : Snapshot :=
  { pc := s.pc, mem := s.mem, reg := s.regs, stack := s.stack, outBuf := s.outBuf, inQ := s.inQ }

/-- `Capture()` (R262). -/
def capture (s : State) : Effect :=
  if s.cfg.historyDepth = some s.history.length then .error ⟨.historyOverflow, 0⟩
  else .ok { s with history := s.history ++ [snapshot s] }

/-- Make a snapshot the live Machine State, with an empty Input Queue, and run (the last lines of
R265). -/
def resume (s : State) (c : Snapshot) : State :=
  { s with
    pc := c.pc, mem := c.mem, regs := c.reg, stack := c.stack, outBuf := c.outBuf, inQ := []
    runState := .running }

/-- `Restore(n)` (R265): discard `n` snapshots from the tail of the history and restore the next one.
The depth is checked before anything is removed (D12). -/
def restore (s : State) (n : Nat) : State :=
  let kept := s.history.length - (n + 1)
  if s.history.length < n + 1 then stop s .historyExhausted n
  else
    match s.history.drop kept with
    | c :: _ => resume { s with history := s.history.take kept } c
    | []     => stop s .historyExhausted n

/-- The two terminal outcomes (R258). -/
inductive TerminalKind where
  | halt
  | retEmpty
  deriving DecidableEq, Repr

/-- The clean stop of a terminal outcome in the non-interactive configuration (R259). -/
def TerminalKind.cause : TerminalKind → Cause
  | .halt     => .halted
  | .retEmpty => .returnedEmpty

/-- `Terminal(kind)` (R259): the core's exception entry. It flushes, then restores the most recent
snapshot, or stops. -/
def terminal (s : State) (kind : TerminalKind) : State :=
  let s₁ := flush s
  if s.cfg.rewindEnable then restore s₁ 0 else stop s₁ kind.cause 0

/-! ### Input (R232, R236) -/

/-- Take the next input code into register `d` and move past the IN (R236, R237). -/
def takeInput (s : State) (d : Fin 8) (c : Cell) (rest : List Cell) : State :=
  advance { writeReg s d c with inQ := rest } 2

/-- `InputRequest(d)` (R232): flush, capture if checkpoints are enabled, then ask for a line. The
cursor stays at the IN. -/
def inputRequest (s : State) (d : Fin 8) : Effect := do
  let s₁ := flush s
  let s₂ ← if s₁.cfg.rewindEnable then capture s₁ else .ok s₁
  .ok (note { s₂ with runState := .awaitLine d } .lineReq)

end Sys2Proof.Machine
end

