-- ==== Sys2Proof/Machine/Flags.lean ====
section
/-! DEFINITION. The core has no status flags and no condition codes (10_state.md R37): what stands in
their place is a truth value in a register, and the STATUS register of the host's port (R40). -/

namespace Sys2Proof.Machine

/-- The result of a comparison, 1 or 0 (R190, R192). -/
def truth (b : Bool) : Cell := if b then 1 else 0

/-- The condition of JT and JF: any cell value but 0 is true (R154, R156). -/
def nonZero (v : Cell) : Bool := v != 0

/-- The code of a stop cause (R41). -/
def Cause.code : Cause → BitVec 8
  | .halted                 => 1
  | .returnedEmpty          => 2
  | .exited                 => 3
  | .decodeError            => 16
  | .invalidOperand         => 17
  | .invalidDestination     => 18
  | .operandFetchOutOfRange => 19
  | .stackUnderflow         => 20
  | .stackOverflow          => 21
  | .arithmeticError        => 22
  | .addressOutOfRange      => 23
  | .voluntaryAbort         => 24
  | .historyExhausted       => 25
  | .historyOverflow        => 26

/-- Is a stop cause fatal, or a clean stop (R41)? -/
def Cause.fatal : Cause → Bool
  | .halted                 => false
  | .returnedEmpty          => false
  | .exited                 => false
  | .decodeError            => true
  | .invalidOperand         => true
  | .invalidDestination     => true
  | .operandFetchOutOfRange => true
  | .stackUnderflow         => true
  | .stackOverflow          => true
  | .arithmeticError        => true
  | .addressOutOfRange      => true
  | .voluntaryAbort         => true
  | .historyExhausted       => true
  | .historyOverflow        => true

/-- STATUS as its port shows it (R40). -/
structure Status where
  state     : BitVec 2
  dest      : BitVec 3
  cause     : BitVec 8
  faultPc   : BitVec 16
  faultWord : BitVec 16
  deriving DecidableEq, Repr

/-- `STATE` (R40): 0, 1 or 2. -/
def RunState.stateField : RunState → BitVec 2
  | .running     => 0
  | .awaitLine _ => 1
  | .stopped _   => 2

/-- `DEST` (R40): the `d` of `AWAIT_LINE(d)`, else 0. -/
def RunState.destField : RunState → BitVec 3
  | .running     => 0
  | .awaitLine d => BitVec.ofNat 3 d.val
  | .stopped _   => 0

/-- `CAUSE` (R40): the code of the stop cause, else 0. -/
def RunState.causeField : RunState → BitVec 8
  | .running     => 0
  | .awaitLine _ => 0
  | .stopped c   => c.code

/-- The status register, readable at every step (R4, R40). -/
def State.status (s : State) : Status :=
  { state := s.runState.stateField, dest := s.runState.destField, cause := s.runState.causeField
    faultPc := s.faultPc, faultWord := s.faultWord }

end Sys2Proof.Machine
end

