-- ==== Sys2Proof/Syntax.lean ====
section
/-! DEFINITION. The instructions as syntax: one constructor per row of spec/opcode_table.json
(30_encoding.md R95), its operands classified by R93. -/

namespace Sys2Proof

/-- An operand word, classified by its value (R93). An `invalid` operand keeps its word, because the
fault it raises reports it (10_state.md R40). -/
inductive Operand where
  /-- A literal, 0 to 32767. -/
  | lit     (v : Word)
  /-- A register reference: the word 32768 + r. -/
  | reg     (r : Fin 8)
  /-- A word 32776 to 65535: "no meaning; faults" (R93, R97). -/
  | invalid (w : Cell)
  deriving DecidableEq, Repr

/-- The two roles of an operand (R94). -/
inductive Role where
  /-- `D`: it names the register the instruction writes; it is never resolved. -/
  | dest
  /-- `S`: it is resolved to a value. -/
  | src
  deriving DecidableEq, Repr

/-- The 22 instructions, in the order of their opcodes (R95). `inp` is IN (`in` is a Lean word). -/
inductive Instr where
  | halt
  | set  (a b : Operand)
  | push (a : Operand)
  | pop  (a : Operand)
  | eq   (a b c : Operand)
  | gt   (a b c : Operand)
  | jmp  (a : Operand)
  | jt   (a b : Operand)
  | jf   (a b : Operand)
  | add  (a b c : Operand)
  | mult (a b c : Operand)
  | mod  (a b c : Operand)
  | and  (a b c : Operand)
  | or   (a b c : Operand)
  | not  (a b : Operand)
  | rmem (a b : Operand)
  | wmem (a b : Operand)
  | call (a : Operand)
  | ret
  | out  (a : Operand)
  | inp  (a : Operand)
  | noop
  deriving DecidableEq, Repr

end Sys2Proof
end

