-- ==== Sys2Proof/Decode.lean ====
section
/-! DEFINITION. The decoder, from the cells at the cursor to an instruction, and the encoder
(30_encoding.md). The unit is the 16-bit cell: the core has no byte order inside (20_memory.md R63). -/

namespace Sys2Proof

/-- Classify an operand word by its value (R93). -/
def Operand.ofCell (w : Cell) : Operand :=
  if w.toNat ≤ 32767 then .lit (w.setWidth 15)
  else if h : w.toNat ≤ 32775 then .reg ⟨w.toNat - 32768, by omega⟩
  else .invalid w

/-- The word of an operand (R93): a literal is its own word, `Rr` is 32768 + r. -/
def Operand.toCell : Operand → Cell
  | .lit v     => v.setWidth 16
  | .reg r     => BitVec.ofNat 16 (32768 + r.val)
  | .invalid w => w

/-- Why the decoder gives no instruction. -/
inductive Reject where
  /-- There is no opcode word: the list of cells is empty. -/
  | noOpcode
  /-- The opcode word is not in 0 to 21 (R97). -/
  | unknownOpcode (op : Cell)
  /-- The cells end before the instruction's last operand word (R97). -/
  | operandsCut
  deriving DecidableEq, Repr

/-- What decoding answers: the instruction with the cells after it, or why there is none. -/
abbrev Decoded := Except Reject (Instr × List Cell)

/-- Format `Z0`: no operand word (R91). -/
def takeZ0 (i : Instr) (ws : List Cell) : Decoded := .ok (i, ws)

/-- Format `Z1`: one operand word (R91). -/
def takeZ1 (k : Operand → Instr) : List Cell → Decoded
  | a :: ws => .ok (k (.ofCell a), ws)
  | []      => .error .operandsCut

/-- Format `Z2`: two operand words (R91). -/
def takeZ2 (k : Operand → Operand → Instr) : List Cell → Decoded
  | a :: b :: ws => .ok (k (.ofCell a) (.ofCell b), ws)
  | [_]          => .error .operandsCut
  | []           => .error .operandsCut

/-- Format `Z3`: three operand words (R91). -/
def takeZ3 (k : Operand → Operand → Operand → Instr) : List Cell → Decoded
  | a :: b :: c :: ws => .ok (k (.ofCell a) (.ofCell b) (.ofCell c), ws)
  | [_, _]            => .error .operandsCut
  | [_]               => .error .operandsCut
  | []                => .error .operandsCut

/-- The opcode map (R95). The opcode word selects by its whole value and is never resolved (R96);
it alone decides the length (R92). -/
def decodeOp (op : Cell) (ws : List Cell) : Decoded :=
  match op.toNat with
  | 0  => takeZ0 .halt ws
  | 1  => takeZ2 .set ws
  | 2  => takeZ1 .push ws
  | 3  => takeZ1 .pop ws
  | 4  => takeZ3 .eq ws
  | 5  => takeZ3 .gt ws
  | 6  => takeZ1 .jmp ws
  | 7  => takeZ2 .jt ws
  | 8  => takeZ2 .jf ws
  | 9  => takeZ3 .add ws
  | 10 => takeZ3 .mult ws
  | 11 => takeZ3 .mod ws
  | 12 => takeZ3 .and ws
  | 13 => takeZ3 .or ws
  | 14 => takeZ2 .not ws
  | 15 => takeZ2 .rmem ws
  | 16 => takeZ2 .wmem ws
  | 17 => takeZ1 .call ws
  | 18 => takeZ0 .ret ws
  | 19 => takeZ1 .out ws
  | 20 => takeZ1 .inp ws
  | 21 => takeZ0 .noop ws
  | _  => .error (.unknownOpcode op)

/-- Decode the instruction at the head of the cells, total on any cells (R99). -/
def decode : List Cell → Decoded
  | []       => .error .noOpcode
  | op :: ws => decodeOp op ws

/-- The operands in the order `a`, `b`, `c`, each with its role (the table of R95). -/
def Instr.operands : Instr → List (Role × Operand)
  | .halt       => []
  | .set a b    => [(.dest, a), (.src, b)]
  | .push a     => [(.src, a)]
  | .pop a      => [(.dest, a)]
  | .eq a b c   => [(.dest, a), (.src, b), (.src, c)]
  | .gt a b c   => [(.dest, a), (.src, b), (.src, c)]
  | .jmp a      => [(.src, a)]
  | .jt a b     => [(.src, a), (.src, b)]
  | .jf a b     => [(.src, a), (.src, b)]
  | .add a b c  => [(.dest, a), (.src, b), (.src, c)]
  | .mult a b c => [(.dest, a), (.src, b), (.src, c)]
  | .mod a b c  => [(.dest, a), (.src, b), (.src, c)]
  | .and a b c  => [(.dest, a), (.src, b), (.src, c)]
  | .or a b c   => [(.dest, a), (.src, b), (.src, c)]
  | .not a b    => [(.dest, a), (.src, b)]
  | .rmem a b   => [(.dest, a), (.src, b)]
  | .wmem a b   => [(.src, a), (.src, b)]
  | .call a     => [(.src, a)]
  | .ret        => []
  | .out a      => [(.src, a)]
  | .inp a      => [(.dest, a)]
  | .noop       => []

/-- The arity: how many operand words the opcode takes (R95); the length is one more (R92). -/
def Instr.arity (i : Instr) : Nat := i.operands.length

/-- The opcode of an instruction (R95). -/
def Instr.opcode : Instr → Cell
  | .halt       => 0
  | .set _ _    => 1
  | .push _     => 2
  | .pop _      => 3
  | .eq _ _ _   => 4
  | .gt _ _ _   => 5
  | .jmp _      => 6
  | .jt _ _     => 7
  | .jf _ _     => 8
  | .add _ _ _  => 9
  | .mult _ _ _ => 10
  | .mod _ _ _  => 11
  | .and _ _ _  => 12
  | .or _ _ _   => 13
  | .not _ _    => 14
  | .rmem _ _   => 15
  | .wmem _ _   => 16
  | .call _     => 17
  | .ret        => 18
  | .out _      => 19
  | .inp _      => 20
  | .noop       => 21

/-- The words of an instruction: its opcode word, then its operand words (R90, R91). -/
def encode (i : Instr) : List Cell := i.opcode :: i.operands.map fun p => p.2.toCell

/-- Four cells, the longest instruction (R91), of a number whose bits 15..0 are the first cell. Bits
from `nbits` up are 0. -/
def tableCells (nbits w : Nat) : List Cell :=
  let v := w % 2 ^ nbits
  [BitVec.ofNat 16 v, BitVec.ofNat 16 (v / 2 ^ 16), BitVec.ofNat 16 (v / 2 ^ 32),
    BitVec.ofNat 16 (v / 2 ^ 48)]

/-- The instruction the decoder reads from an opcode-table word. -/
def decodeTableWord (nbits w : Nat) : Option Instr :=
  match decode (tableCells nbits w) with
  | .ok (i, _) => some i
  | .error _   => none

end Sys2Proof
end

