-- ==== Sys2Proof/Machine/Operands.lean ====
section
/-! DEFINITION. Every operand form: destinations and sources (40_dispatch.md R124, R125), and the
check of all operands of an instruction (R126). -/

namespace Sys2Proof.Machine

/-- `Dest(w)` (R125): the register a destination operand names. It is never resolved. -/
def dest : Operand → Except Trap (Fin 8)
  | .reg r     => .ok r
  | .lit v     => .error ⟨.invalidDestination, (Operand.lit v).toCell.toNat⟩
  | .invalid w => .error ⟨.invalidDestination, w.toNat⟩

/-- `Resolve(w)` (R124): the value of a source operand. -/
def resolve (s : State) : Operand → Except Trap Cell
  | .lit v     => .ok (v.setWidth 16)
  | .reg r     => .ok (readReg s r)
  | .invalid w => .error ⟨.invalidOperand, w.toNat⟩

/-- The check of one operand in its role (R126); it reads no register. -/
def checkOperand : Role → Operand → Except Trap Unit
  | .dest, a           => (dest a).map fun _ => ()
  | .src,  .lit _      => .ok ()
  | .src,  .reg _      => .ok ()
  | .src,  .invalid w  => .error ⟨.invalidOperand, w.toNat⟩

/-- The first operand that fails its check, in the order of the list. -/
def checkOperands : List (Role × Operand) → Except Trap Unit
  | []             => .ok ()
  | (r, a) :: rest => do checkOperand r a; checkOperands rest

/-- `Validate(op, w1..wk)` (R126): operands `a`, `b`, `c` in this order. The meanings check in the
same order as they read their operands; that the two agree is a law. -/
def validate (i : Instr) : Except Trap Unit := checkOperands i.operands

end Sys2Proof.Machine
end

