-- ==== Sys2Proof/Machine/Alu.lean ====
section
/-! DEFINITION. The compare, arithmetic and bitwise instructions (43_alu.md). Every function computes
on the exact unsigned values and narrows at the end (R206, R208). -/

namespace Sys2Proof.Machine

/-- "mod 32768" (R206): bits 14 to 0 of an exact result. -/
def narrow (n : Nat) : Cell := BitVec.ofNat 16 (n % 32768)

/-- `(B == C) ? 1 : 0`, on whole cell values (R190). -/
def aluEq (B C : Cell) : Cell := truth (decide (B = C))

/-- `(B > C) ? 1 : 0`, unsigned (R192). -/
def aluGt (B C : Cell) : Cell := truth (decide (C.toNat < B.toNat))

/-- `(B + C) mod 32768` (R194). -/
def aluAdd (B C : Cell) : Cell := narrow (B.toNat + C.toNat)

/-- `(B * C) mod 32768`, the product exact (R196). -/
def aluMult (B C : Cell) : Cell := narrow (B.toNat * C.toNat)

/-- `(B mod C) mod 32768`, with the fault of a zero divisor (R198). -/
def aluMod (B C : Cell) : Except Trap Cell :=
  if C = 0 then .error ⟨.arithmeticError, 0⟩ else .ok (narrow (B.toNat % C.toNat))

/-- `(B & C) & 0x7FFF` (R200). -/
def aluAnd (B C : Cell) : Cell := (B &&& C) &&& 0x7FFF

/-- `(B | C) & 0x7FFF` (R202). -/
def aluOr (B C : Cell) : Cell := (B ||| C) &&& 0x7FFF

/-- `0x7FFF ^ B[14:0]` (R204). -/
def aluNot (B : Cell) : Cell := 0x7FFF ^^^ (B.setWidth 15).setWidth 16

/-- The frame of a `Z3` ALU instruction: the operands in order, the result into the destination, past
four words. The sources are read before the destination is written (R46). -/
def alu3 (f : Cell → Cell → Except Trap Cell) (a b c : Operand) (s : State) : Result := settle s do
  let d ← dest a
  let B ← resolve s b
  let C ← resolve s c
  let v ← f B C
  .ok (advance (writeReg s d v) 4)

/-- EQ (R190). -/
def execEq (a b c : Operand) (s : State) : Result := alu3 (fun B C => .ok (aluEq B C)) a b c s

/-- GT (R192). -/
def execGt (a b c : Operand) (s : State) : Result := alu3 (fun B C => .ok (aluGt B C)) a b c s

/-- ADD (R194). -/
def execAdd (a b c : Operand) (s : State) : Result := alu3 (fun B C => .ok (aluAdd B C)) a b c s

/-- MULT (R196). -/
def execMult (a b c : Operand) (s : State) : Result := alu3 (fun B C => .ok (aluMult B C)) a b c s

/-- MOD (R198): the only instruction that raises `ArithmeticError` (R209). -/
def execMod (a b c : Operand) (s : State) : Result := alu3 aluMod a b c s

/-- AND (R200). -/
def execAnd (a b c : Operand) (s : State) : Result := alu3 (fun B C => .ok (aluAnd B C)) a b c s

/-- OR (R202). -/
def execOr (a b c : Operand) (s : State) : Result := alu3 (fun B C => .ok (aluOr B C)) a b c s

/-- NOT (R204). -/
def execNot (a b : Operand) (s : State) : Result := settle s do
  let d ← dest a
  let B ← resolve s b
  .ok (advance (writeReg s d (aluNot B)) 3)

end Sys2Proof.Machine
end

