-- ==== Sys2Proof/Machine/Control.lean ====
section
/-! DEFINITION. The control transfer instructions (41_control.md). -/

namespace Sys2Proof.Machine

/-- HALT (R150): a terminal outcome; the cursor is not changed (D9). -/
def execHalt (s : State) : Result := .next (terminal s .halt)

/-- JMP (R152). -/
def execJmp (a : Operand) (s : State) : Result := settle s do
  let target ← resolve s a
  .ok (jump s target)

/-- JT (R154): jump if `a` is not 0. Both operands are checked whether or not it jumps (R126). -/
def execJt (a b : Operand) (s : State) : Result := settle s do
  let cond ← resolve s a
  let target ← resolve s b
  .ok (if nonZero cond then jump s target else advance s 3)

/-- JF (R156): jump if `a` is 0. -/
def execJf (a b : Operand) (s : State) : Result := settle s do
  let cond ← resolve s a
  let target ← resolve s b
  .ok (if nonZero cond then advance s 3 else jump s target)

/-- CALL (R158): push the address after the CALL, then jump; the target is resolved first. -/
def execCall (a : Operand) (s : State) : Result := settle s do
  let target ← resolve s a
  let s₁ ← pushStack s (s.pc + 2)
  .ok (jump s₁ target)

/-- RET (R160): pop the cursor; on an empty stack a terminal outcome, never `StackUnderflow`. -/
def execRet (s : State) : Result :=
  if stackEmpty s then .next (terminal s .retEmpty)
  else settle s do
    let (v, s₁) ← popStack s
    .ok (jump s₁ v)

/-- NOOP (R162). -/
def execNoop (s : State) : Result := .next (advance s 1)

end Sys2Proof.Machine
end

