-- ==== Sys2Proof/Machine/Io.lean ====
section
/-! DEFINITION. The character I/O instructions (44_io.md R222, R236). -/

namespace Sys2Proof.Machine

/-- OUT (R222): append the value to the Output Buffer as it is; it never flushes. -/
def execOut (a : Operand) (s : State) : Result := settle s do
  let v ← resolve s a
  .ok (advance { s with outBuf := s.outBuf ++ [v] } 2)

/-- IN (R236): take the next queued code, or make an input request when the queue is empty. The
destination is checked before the queue is looked at. -/
def execIn (a : Operand) (s : State) : Result := settle s do
  let d ← dest a
  match s.inQ with
  | c :: rest => .ok (takeInput s d c rest)
  | []        => inputRequest s d

end Sys2Proof.Machine
end

