-- ==== Sys2Proof/Machine/Move.lean ====
section
/-! DEFINITION. The register move, stack and memory instructions (42_move_and_stack.md). -/

namespace Sys2Proof.Machine

/-- SET (R170): copy a value unmodified. -/
def execSet (a b : Operand) (s : State) : Result := settle s do
  let d ← dest a
  let v ← resolve s b
  .ok (advance (writeReg s d v) 3)

/-- PUSH (R172). -/
def execPush (a : Operand) (s : State) : Result := settle s do
  let v ← resolve s a
  let s₁ ← pushStack s v
  .ok (advance s₁ 2)

/-- POP (R174): the destination is checked before the stack. -/
def execPop (a : Operand) (s : State) : Result := settle s do
  let d ← dest a
  let (v, s₁) ← popStack s
  .ok (advance (writeReg s₁ d v) 2)

/-- The address of a memory operand: the resolved operand itself (R184), which must name a cell
(R178, R181, D7). -/
def memAddress (v : Cell) : Except Trap Nat :=
  if inMemory v then .ok v.toNat else .error ⟨.addressOutOfRange, v.toNat⟩

/-- RMEM (R178): copy a cell whole into a register. -/
def execRmem (a b : Operand) (s : State) : Result := settle s do
  let d ← dest a
  let addr ← resolve s b
  let k ← memAddress addr
  .ok (advance (writeReg s d (readMem s k)) 3)

/-- WMEM (R181): store a value whole; both operands are sources. -/
def execWmem (a b : Operand) (s : State) : Result := settle s do
  let addr ← resolve s a
  let v ← resolve s b
  let k ← memAddress addr
  .ok (advance (writeMem s k v) 3)

end Sys2Proof.Machine
end

