-- ==== Sys2Proof/Machine/Fetch.lean ====
section
/-! DEFINITION. Fetch and decode at the cursor (40_dispatch.md R121, R122, R123), and placing an
instruction there. -/

namespace Sys2Proof.Machine

/-- The cells from address `a` up, at most `n` of them, none above 32767 (R90, R122: addresses never
wrap, 20_memory.md R69). -/
def cellsFrom (m : Memory) (a : Nat) : Nat → List Cell
  | 0     => []
  | n + 1 => if a < Config.memSize then m.read a :: cellsFrom m (a + 1) n else []

/-- The fault of a decoder's rejection (R97, R256). There is always an opcode word when the cursor is
in range, so the first is never raised by `fetch`. -/
def rejectTrap : Reject → Trap
  | .noOpcode         => ⟨.exited, 0⟩
  | .unknownOpcode op => ⟨.decodeError, op.toNat⟩
  | .operandsCut      => ⟨.operandFetchOutOfRange, 0⟩

/-- Fetch and decode at the cursor of a memory (R121, R122): above 32767 the run ends with `EXITED`;
else an unknown opcode, then operand words past the last cell, in this order (R256). -/
def fetchAt (m : Memory) (pc : Cell) : Except Trap Instr :=
  if inMemory pc then
    match decode (cellsFrom m pc.toNat 4) with
    | .ok (i, _) => .ok i
    | .error r   => .error (rejectTrap r)
  else .error ⟨.exited, 0⟩

/-- Fetch and decode the instruction at the cursor. -/
def fetch (s : State) : Except Trap Instr := fetchAt s.mem s.pc

/-- Store words from address `a` up, those that have a cell. -/
def storeCells (m : Memory) (a : Nat) : List Cell → Memory
  | []      => m
  | w :: ws => storeCells (if a < Config.memSize then m.write a w else m) (a + 1) ws

end Sys2Proof.Machine
end

