-- ==== Sys2Proof/Machine/Lines.lean ====
section
/-! DEFINITION. The step `Deliver(L)` (44_io.md R237), the operator commands (60_exceptions.md R268 to
R271) and the host's line source (R239). -/

namespace Sys2Proof.Machine

/-- An operator command (R268). -/
inductive Command where
  | halt
  | rewind (n : Nat)
  deriving DecidableEq, Repr

/-- The codes of `halt` (R268). -/
def haltCodes : List Cell := [104, 97, 108, 116]

/-- The codes of `rewind` and the one space after it (R268). -/
def rewindCodes : List Cell := [114, 101, 119, 105, 110, 100, 32]

/-- Is a code a decimal digit, 48 to 57 (R268)? -/
def isDigit (c : Cell) : Bool := decide (48 ≤ c.toNat ∧ c.toNat ≤ 57)

/-- The decimal value of digit codes, of any size, leading zeros allowed (R268). -/
def decimalValue (ds : List Cell) : Nat := ds.foldl (fun n c => 10 * n + (c.toNat - 48)) 0

/-- The operator command a line is, if it is one (`IsCommand`, R268): exact, case-sensitive. -/
def parseCommand (L : List Cell) : Option Command :=
  if L = haltCodes then some .halt
  else if L.take 7 = rewindCodes ∧ L.drop 7 ≠ [] ∧ (L.drop 7).all isDigit = true then
    some (.rewind (decimalValue (L.drop 7)))
  else none

/-- The command a delivered line is in this configuration: with `REWIND_ENABLE = false` no line is
one (R268, R284). -/
def commandOf (s : State) (L : List Cell) : Option Command :=
  if s.cfg.rewindEnable then parseCommand L else none

/-- `HandleCommand` (R270, R271). -/
def handleCommand (s : State) : Command → State
  | .halt     => stop s .voluntaryAbort 0
  | .rewind n => restore s n

/-- An ordinary line completes the waiting IN (R235, R237): the queue becomes the line and a newline,
and its first code goes to register `d`. -/
def completeIn (s : State) (d : Fin 8) (L : List Cell) : State :=
  match L ++ [Config.newline] with
  | c :: rest => { takeInput s d c rest with runState := .running }
  | []        => s

/-- Does a line meet R234: every code a Word? -/
def isLine (L : List Cell) : Bool := L.all fun c => decide (c.toNat ≤ 32767)

/-- `Deliver(L)` (R237). A line that R234 refuses, or one that no request asked for (R240), has no
step. -/
def deliver (s : State) (L : List Cell) : Result :=
  match s.runState with
  | .awaitLine d =>
    if isLine L then
      let s₁ := note s (.line L)
      match commandOf s₁ L with
      | some c => .next (handleCommand s₁ c)
      | none   => .next (completeIn s₁ d L)
    else .refused .lineNotWords
  | .running   => .refused .lineUnasked
  | .stopped _ => .refused .lineUnasked

/-- The host's answer to an outstanding request (R239): the first line of the script while there is
one; else whatever the operator does (a free value, U7), which may be to give no line yet. A core that
gets no line changes nothing (R238): only the model's counter moves (log 6). -/
def answerRequest (s : State) : Result :=
  match s.script with
  | L :: rest => deliver { s with script := rest } L
  | []        =>
    let s₁ := { s with linePolls := s.linePolls + 1 }
    match Config.operatorLine s.linePolls with
    | some L => deliver s₁ (L.map fun c => c.setWidth 16)
    | none   => .next s₁

end Sys2Proof.Machine
end

