-- ==== Sys2Proof/Machine/Step.lean ====
section
/-! DEFINITION. One step of the machine (40_dispatch.md R120). -/

namespace Sys2Proof.Machine

/-- One step (R120): in RUNNING fetch and execute one instruction; in AWAIT_LINE the host answers the
request; in STOPPED there is no step. -/
def step (s : State) : Host.Outcome State Fault Refusal :=
  match s.runState with
  | .running     =>
    match fetch s with
    | .ok i    => exec i s
    | .error t => raise s t
  | .awaitLine _ => answerRequest s
  | .stopped c   => .fault (.runStopped c)

/-- Place an instruction where the next fetch reads it: the four cells from the cursor up (log 7). -/
def State.withFetchWord (s : State) (nbits w : Nat) : State :=
  { s with mem := storeCells s.mem s.pc.toNat (tableCells nbits w) }

end Sys2Proof.Machine
end

