-- ==== Sys2Proof/Machine/Load.lean ====
section
/-! DEFINITION. The image load and the start of a run (70_reset_and_hazards.md R290, R291). -/

namespace Sys2Proof.Machine

/-- A refused image: no initial state and no run (R291, U12). -/
inductive LoadError where
  | oddLength
  | tooLarge
  deriving DecidableEq, Repr

/-- Image word: a little-endian pair of bytes, all 16 bits kept (R62, C2). -/
def imageWord (lo hi : BitVec 8) : Cell := BitVec.ofNat 16 (lo.toNat + 256 * hi.toNat)

/-- The memory of an image whose first word goes to address `a`; the rest is 0 (R291). -/
def imageCells (a : Nat) : List (BitVec 8) → Memory
  | lo :: hi :: rest =>
    if imageWord lo hi = 0 then imageCells (a + 1) rest
    else (a, imageWord lo hi) :: imageCells (a + 1) rest
  | [_] => []
  | []  => []

/-- `Load(bytes)` (R291). -/
def load (bytes : List (BitVec 8)) : Except LoadError Memory :=
  if bytes.length % 2 ≠ 0 then .error .oddLength
  else if Config.memSize < bytes.length / 2 then .error .tooLarge
  else .ok (imageCells 0 bytes)

/-- The start of a run (R290): reset with an image, under a configuration, with a script (R239). -/
def boot (cfg : Cfg) (script : List (List Cell)) (bytes : List (BitVec 8)) :
    Except LoadError State :=
  match load bytes with
  | .ok m    => .ok { State.reset with mem := m, cfg := cfg, script := script }
  | .error e => .error e

end Sys2Proof.Machine
end

