-- ==== Sys2Proof/WellFormed.lean ====
section
/-! DEFINITION. Which instructions are well formed: every operand fits its role (30_encoding.md R94,
R97). An instruction that is not still has a meaning: it stops the run with the fault R97 names. -/

namespace Sys2Proof

/-- May an operand stand in a role (R94, R97)? A destination is a register reference; a source is a
literal or a register reference. -/
def Operand.fits : Role → Operand → Bool
  | .dest, .reg _     => true
  | .dest, .lit _     => false
  | .dest, .invalid _ => false
  | .src,  .lit _     => true
  | .src,  .reg _     => true
  | .src,  .invalid _ => false

/-- Is the operand one that classifying a word can give: does an `invalid` hold a word above 32775
(R93)? -/
def Operand.canonical : Operand → Bool
  | .lit _     => true
  | .reg _     => true
  | .invalid w => decide (32775 < w.toNat)

/-- Every operand fits its role. -/
def Instr.wellFormed (i : Instr) : Bool := i.operands.all fun p => p.2.fits p.1

/-- Every operand is one that a word can give. A well-formed instruction is canonical. -/
def Instr.canonical (i : Instr) : Bool := i.operands.all fun p => p.2.canonical

end Sys2Proof
end

