-- ==== Sys2Proof/Safety.lean ====
section
/-! DEFINITION. The terms claims are stated in: what a step leaves unchanged, what a stop and a restore
leave, and the invariants of the machine. -/

namespace Sys2Proof.Safety

open Sys2Proof.Machine

/-! ### Frames -/

/-- The pieces of the state, memory cell by cell and the register file register by register. -/
inductive Part where
  | pc
  | cell (a : Nat)
  | reg (r : Fin 8)
  | stack
  | outBuf
  | inQ
  | history
  | runState
  | faultPc
  | faultWord
  | cfg
  | ports
  | script
  | linePolls
  deriving DecidableEq, Repr

/-- Does a piece hold the same in both states? -/
def Part.same (s t : State) : Part → Prop
  | .pc        => t.pc = s.pc
  | .cell a    => readMem t a = readMem s a
  | .reg r     => readReg t r = readReg s r
  | .stack     => t.stack = s.stack
  | .outBuf    => t.outBuf = s.outBuf
  | .inQ       => t.inQ = s.inQ
  | .history   => t.history = s.history
  | .runState  => t.runState = s.runState
  | .faultPc   => t.faultPc = s.faultPc
  | .faultWord => t.faultWord = s.faultWord
  | .cfg       => t.cfg = s.cfg
  | .ports     => t.ports = s.ports
  | .script    => t.script = s.script
  | .linePolls => t.linePolls = s.linePolls

/-- From `s` to `t` nothing changes but the listed pieces. -/
def ChangesOnly (written : List Part) (s t : State) : Prop :=
  ∀ p : Part, p ∉ written → p.same s t

/-! ### Stops and restores -/

/-- What `Stop(cause, info)` leaves of `s` (R254): the Output Buffer is emitted, STATUS tells the cause,
the cursor and the word; memory, registers, stack, Input Queue and history keep their values. -/
structure StoppedWith (s t : State) (cause : Cause) (word : Cell) : Prop where
  runState  : t.runState = .stopped cause
  faultPc   : t.faultPc = s.pc
  faultWord : t.faultWord = word
  emptied   : t.outBuf = []
  emitted   : t.emitted = s.emitted ++ s.outBuf
  rest      : ChangesOnly [.outBuf, .runState, .faultPc, .faultWord, .ports] s t

/-- What a restore of snapshot `c` leaves of `s`, when `h` is the history before `c` (R265). `sent` is
what the step emitted before it. -/
structure RestoredTo (s t : State) (h : List Snapshot) (c : Snapshot) (sent : List Cell) : Prop where
  pc       : t.pc = c.pc
  mem      : t.mem = c.mem
  regs     : t.regs = c.reg
  stack    : t.stack = c.stack
  outBuf   : t.outBuf = c.outBuf
  inQ      : t.inQ = []
  runState : t.runState = .running
  history  : t.history = h
  emitted  : t.emitted = s.emitted ++ sent
  faultPc  : t.faultPc = s.faultPc
  faultWord : t.faultWord = s.faultWord
  cfg      : t.cfg = s.cfg
  script   : t.script = s.script
  polls    : t.linePolls = s.linePolls

/-- What a terminal outcome leaves (R259): a restore of the most recent snapshot after a flush, the
stop `HistoryExhausted` when there is none, or a clean stop in the non-interactive configuration. -/
structure TerminalOutcome (s t : State) (clean : Cause) : Prop where
  restores : s.cfg.rewindEnable = true → ∀ h c, s.history = h ++ [c] → RestoredTo s t h c s.outBuf
  exhausts : s.cfg.rewindEnable = true → s.history = [] → StoppedWith s t .historyExhausted 0
  stops    : s.cfg.rewindEnable = false → StoppedWith s t clean 0

/-- Is the run stopped? -/
def Stopped (s : State) : Prop := ∃ c, s.runState = .stopped c

/-- Does the core wait for a line? -/
def Awaiting (s : State) : Prop := ∃ d, s.runState = .awaitLine d

/-- A safe run has not stopped on a fatal cause (R41, R253). -/
def Safe (s : State) : Prop := ∀ c, s.runState = .stopped c → c.fatal = false

/-! ### Invariants: each holds after reset and every step keeps it -/

/-- The live memory and every stored copy have the canonical form. -/
def MemoryInv (s : State) : Prop := s.mem.wf ∧ ∀ c ∈ s.history, c.mem.wf

/-- The buffers: queued codes are Words (R32); a snapshot's buffers are empty (R262); both buffers are
empty while waiting (R232), and the Output Buffer after a stop (R225). -/
structure BufferInv (s : State) : Prop where
  words     : ∀ x ∈ s.inQ, x.toNat ≤ 32767
  snapshots : ∀ c ∈ s.history, c.outBuf = [] ∧ c.inQ = []
  awaiting  : Awaiting s → s.inQ = [] ∧ s.outBuf = []
  stopped   : Stopped s → s.outBuf = []

/-- `FAULT_PC` and `FAULT_WORD` are 0 while the run is not stopped (R40). -/
def StatusInv (s : State) : Prop := ¬ Stopped s → s.faultPc = 0 ∧ s.faultWord = 0

/-- A bounded stack, live or stored, and a bounded history keep their bounds (R6, R28, R262). -/
structure BoundInv (s : State) : Prop where
  stack   : ∀ n, s.cfg.stackDepth = some n → s.stack.length ≤ n
  stored  : ∀ n, s.cfg.stackDepth = some n → ∀ c ∈ s.history, c.stack.length ≤ n
  history : ∀ n, s.cfg.historyDepth = some n → s.history.length ≤ n

/-- The checkpoints: none without `REWIND_ENABLE` (R284); a waiting core stands at its IN (R232); every
snapshot stands at an IN (R262); while waiting the most recent snapshot is the live state (R271). -/
structure CheckpointInv (s : State) : Prop where
  disabled  : s.cfg.rewindEnable = false → s.history = []
  atIn      : ∀ d, s.runState = .awaitLine d → fetch s = .ok (.inp (.reg d))
  snapshots : ∀ c ∈ s.history, ∃ d, fetchAt c.mem c.pc = .ok (.inp (.reg d))
  current   : s.cfg.rewindEnable = true → Awaiting s → s.history.getLast? = some (snapshot s)

/-- How many requests a list of transactions holds. -/
def requests (es : List PortEvent) : Nat := es.countP fun e => decide (e = .lineReq)

/-- How many delivered lines a list of transactions holds. -/
def lines (es : List PortEvent) : Nat :=
  es.countP fun e => match e with | .line _ => true | .flush _ => false | .lineReq => false

/-- The line discipline of R240: one request more than lines while waiting, else as many. -/
structure PortInv (s : State) : Prop where
  awaiting : Awaiting s → requests s.ports = lines s.ports + 1
  others   : ¬ Awaiting s → requests s.ports = lines s.ports

/-- A run in which a restore always finds a snapshot (R266): the history is not empty, or the core
runs at an IN that is about to capture one. -/
def HasCheckpoint (s : State) : Prop :=
  s.history ≠ [] ∨ (s.runState = .running ∧ s.inQ = [] ∧ ∃ d, fetch s = .ok (.inp (.reg d)))

end Sys2Proof.Safety
end

