-- ==== Sys2Proof/Certificates/Slice0/Obligations.lean ====
section
/-! DEFINITION. The statements for the provers, from the numbered rules of spec/. Each docstring names
the rule it formalises. -/

open Sys2Proof Sys2Proof.Machine Sys2Proof.Safety

namespace Sys2Proof.Claims

/-- The instruction completes in a next state with a property. -/
def Completes (i : Instr) (s : State) (post : State → Prop) : Prop :=
  ∃ t, exec i s = .next t ∧ post t

/-- The instruction stops the run with a cause and a word, and changes nothing else (R128, R254). -/
def Stops (i : Instr) (s : State) (cause : Cause) (word : Cell) : Prop :=
  Completes i s fun t => StoppedWith s t cause word

/-- What a `Z3` instruction with destination `d` leaves when it writes `v`. -/
def WritesReg (s : State) (d : Fin 8) (v : Nat) (len : Nat) (t : State) : Prop :=
  (readReg t d).toNat = v ∧ t.pc = s.pc + BitVec.ofNat 16 len ∧ ChangesOnly [.pc, .reg d] s t

/-- The instruction's operand faults (R124, R125, R126): the first operand that does not fit its role
stops the run, `a` before `b` before `c`. (The spec's own decisions D2, D3 and D24.) -/
def OperandFaults (i : Instr) : Prop :=
  ∀ (s : State) (before after : List (Role × Operand)) (r : Role) (a : Operand),
    i.operands = before ++ (r, a) :: after → (∀ p ∈ before, p.2.fits p.1 = true) →
    a.fits r = false →
    Stops i s (match r with | .dest => .invalidDestination | .src => .invalidOperand) a.toCell

end Sys2Proof.Claims

open Sys2Proof.Claims

/-! ### Encoding -/

/-- Decoding an encoded well-formed instruction gives it back, whatever follows it (R91, R93, R95). -/
def Obligations.DecodeOfEncode : Prop :=
  ∀ (i : Instr) (rest : List Cell), i.wellFormed = true → decode (encode i ++ rest) = .ok (i, rest)

/-- The words of a decoded instruction are the words it was decoded from: every operand field is
significant, and the cells after the instruction are the next one's (R98). -/
def Obligations.EncodeOfDecode : Prop :=
  ∀ (ws rest : List Cell) (i : Instr), decode ws = .ok (i, rest) →
    encode i ++ rest = ws ∧ i.canonical = true

/-- The four examples of R103, a word of each format, and the image bytes of the last (R62). -/
def Obligations.ExampleWordsDecode : Prop :=
  decode [0x0015] = .ok (.noop, []) ∧
  decode [0x0013, 0x0041] = .ok (.out (.lit 65), []) ∧
  decode [0x0001, 0x8001, 0x8000] = .ok (.set (.reg 1) (.reg 0), []) ∧
  decode [0x0009, 0x8000, 0x8000, 0x0001] = .ok (.add (.reg 0) (.reg 0) (.lit 1), []) ∧
  (∃ m, load [0x09, 0x00, 0x00, 0x80, 0x00, 0x80, 0x01, 0x00] = .ok m ∧
    cellsFrom m 0 4 = [0x0009, 0x8000, 0x8000, 0x0001])

/-- The three classes of operand words (R93). -/
def Obligations.OperandClasses : Prop :=
  ∀ w : Cell,
    (w.toNat ≤ 32767 → ∃ v : Word, Operand.ofCell w = .lit v ∧ v.toNat = w.toNat) ∧
    (32768 ≤ w.toNat ∧ w.toNat ≤ 32775 →
      ∃ r : Fin 8, Operand.ofCell w = .reg r ∧ r.val = w.toNat - 32768 ∧
        r.val = (w.extractLsb' 0 3).toNat) ∧
    (32776 ≤ w.toNat → Operand.ofCell w = .invalid w)

/-! ### Fetch, decode and operands (40_dispatch.md) -/

/-- A step in RUNNING executes the instruction whose cells stand at the cursor: `exec` of it at the same
state, with nothing added around it (R120). -/
def Obligations.StepRunsDecoded : Prop :=
  ∀ (s : State) (i : Instr) (rest : List Cell), s.runState = .running → s.pc.toNat ≤ 32767 →
    decode (cellsFrom s.mem s.pc.toNat 4) = .ok (i, rest) → step s = exec i s

/-- The fetch faults in their order (R121, R122, R256): the cursor outside memory stops with `EXITED`;
an opcode word above 21 with `DecodeError`; operand words past address 32767 with
`OperandFetchOutOfRange`; a `Z0` instruction at address 32767 is fetched whole. (The spec's own
decisions D5, D6, D25.) -/
def Obligations.FetchFaults : Prop :=
  ∀ s : State, s.runState = .running →
    (32767 < s.pc.toNat → ∃ t, step s = .next t ∧ StoppedWith s t .exited 0) ∧
    (s.pc.toNat ≤ 32767 → 21 < (readMem s s.pc.toNat).toNat →
      ∃ t, step s = .next t ∧ StoppedWith s t .decodeError (readMem s s.pc.toNat)) ∧
    (∀ i : Instr, s.pc.toNat ≤ 32767 → i.opcode = readMem s s.pc.toNat →
      32767 < s.pc.toNat + i.arity →
      ∃ t, step s = .next t ∧ StoppedWith s t .operandFetchOutOfRange 0) ∧
    (∀ i : Instr, s.pc.toNat = 32767 → i.opcode = readMem s 32767 → i.arity = 0 →
      fetch s = .ok i)

/-- An instruction whose words are all in memory is fetched whole, its operand words read at `pc + 1`
to `pc + k` before its effect (R90, R122, R123). -/
def Obligations.FetchReadsOperandWords : Prop :=
  ∀ (s : State) (i : Instr), s.pc.toNat + i.arity ≤ 32767 → i.canonical = true →
    i.opcode = readMem s s.pc.toNat →
    (∀ k (h : k < i.operands.length),
      readMem s (s.pc.toNat + 1 + k) = (i.operands[k]'h).2.toCell) →
    fetch s = .ok i

/-- `Resolve` and `Dest` (R124, R125; decisions D2, D3). As a source a literal is its own value, a register reference the
register's current value, and a word above 32775 raises `InvalidOperand`. As a destination a register
reference names its register, never resolved, and every other word raises `InvalidDestination`. -/
def Obligations.OperandRoles : Prop :=
  ∀ (s : State) (w : Cell),
    (w.toNat ≤ 32767 → resolve s (.ofCell w) = .ok w) ∧
    (∀ r : Fin 8, w.toNat = 32768 + r.val →
      resolve s (.ofCell w) = .ok (readReg s r) ∧ dest (.ofCell w) = .ok r) ∧
    (32775 < w.toNat → resolve s (.ofCell w) = .error ⟨.invalidOperand, w.toNat⟩) ∧
    (w.toNat < 32768 ∨ 32775 < w.toNat →
      dest (.ofCell w) = .error ⟨.invalidDestination, w.toNat⟩)

/-- Every operand of every instruction is checked before its effect, in the order `a`, `b`, `c`, used or
not: the first that fails raises its fault (R126, decision D24), and then nothing else changes (R128). -/
def Obligations.OperandsCheckedInOrder : Prop :=
  ∀ i : Instr, OperandFaults i ∧ (validate i = .ok () ↔ i.wellFormed = true)

/-! ### Moves, stack and memory (42_move_and_stack.md) -/

/-- SET (R170). -/
def Obligations.SetCopiesValue : Prop :=
  (∀ (s : State) (d : Fin 8) (b : Operand) (v : Cell), resolve s b = .ok v →
    Completes (.set (.reg d) b) s (WritesReg s d v.toNat 3)) ∧
  ∀ a b, OperandFaults (.set a b)

/-- PUSH (R172): the value goes on top; a full bounded stack stops the run (R28,
decision D17). -/
def Obligations.PushAppendsValue : Prop :=
  (∀ (s : State) (a : Operand) (v : Cell), resolve s a = .ok v →
    (s.cfg.stackDepth ≠ some s.stack.length →
      Completes (.push a) s fun t =>
        t.stack = s.stack ++ [v] ∧ t.pc = s.pc + 2 ∧ ChangesOnly [.pc, .stack] s t) ∧
    (s.cfg.stackDepth = some s.stack.length → Stops (.push a) s .stackOverflow 0)) ∧
  ∀ a, OperandFaults (.push a)

/-- POP (R174): the top entry goes to the register; an empty stack stops the run (R29). -/
def Obligations.PopTakesTop : Prop :=
  (∀ (s : State) (d : Fin 8),
    (∀ st v, s.stack = st ++ [v] →
      Completes (.pop (.reg d)) s fun t =>
        readReg t d = v ∧ t.stack = st ∧ t.pc = s.pc + 2 ∧
          ChangesOnly [.pc, .reg d, .stack] s t) ∧
    (s.stack = [] → Stops (.pop (.reg d)) s .stackUnderflow 0)) ∧
  ∀ a, OperandFaults (.pop a)

/-- RMEM (R178): the cell is copied whole; an address above 32767 stops the run (decision
D7). -/
def Obligations.RmemCopiesCell : Prop :=
  (∀ (s : State) (d : Fin 8) (b : Operand) (k : Cell), resolve s b = .ok k →
    (k.toNat ≤ 32767 →
      Completes (.rmem (.reg d) b) s (WritesReg s d (readMem s k.toNat).toNat 3)) ∧
    (32767 < k.toNat → Stops (.rmem (.reg d) b) s .addressOutOfRange k)) ∧
  ∀ a b, OperandFaults (.rmem a b)

/-- WMEM (R181): the cell at the resolved address takes the value unmasked, and no other cell changes;
an address above 32767 stops the run (decision D7). The premise is the memory invariant (`MemoryInvKept`). -/
def Obligations.WmemStoresValue : Prop :=
  (∀ (s : State) (a b : Operand) (k v : Cell), s.mem.wf →
    resolve s a = .ok k → resolve s b = .ok v →
    (k.toNat ≤ 32767 →
      Completes (.wmem a b) s fun t =>
        readMem t k.toNat = v ∧ t.pc = s.pc + 3 ∧ ChangesOnly [.pc, .cell k.toNat] s t) ∧
    (32767 < k.toNat → Stops (.wmem a b) s .addressOutOfRange k)) ∧
  ∀ a b, OperandFaults (.wmem a b)

/-- A store is seen by the fetch of every later instruction, with no fence (R74): after a WMEM to any
cell of the next instruction's window the decoder is given the value stored, and the WMEM itself ran
with the words read before the store. -/
def Obligations.StoreSeenByNextFetch : Prop :=
  ∀ (s : State) (a b : Operand) (k v : Cell) (j : Nat), s.mem.wf → s.runState = .running →
    fetch s = .ok (.wmem a b) → resolve s a = .ok k → resolve s b = .ok v →
    k.toNat ≤ 32767 → k.toNat = s.pc.toNat + 3 + j → j < 4 →
    ∃ t, step s = .next t ∧ t.pc.toNat = s.pc.toNat + 3 ∧
      (cellsFrom t.mem t.pc.toNat 4)[j]? = some v

/-! ### ALU (43_alu.md) -/

/-- EQ and GT (R190, R192): 1 or 0, comparing whole cell values, unsigned. -/
def Obligations.ComparesWriteTruth : Prop :=
  (∀ (s : State) (d : Fin 8) (b c : Operand) (B C : Cell),
    resolve s b = .ok B → resolve s c = .ok C →
    Completes (.eq (.reg d) b c) s (WritesReg s d (if B.toNat = C.toNat then 1 else 0) 4) ∧
    Completes (.gt (.reg d) b c) s (WritesReg s d (if B.toNat > C.toNat then 1 else 0) 4)) ∧
  ∀ a b c, OperandFaults (.eq a b c) ∧ OperandFaults (.gt a b c)

/-- ADD and MULT (R194, R196): the exact unsigned result, reduced modulo 32768. -/
def Obligations.AddMultReduce : Prop :=
  (∀ (s : State) (d : Fin 8) (b c : Operand) (B C : Cell),
    resolve s b = .ok B → resolve s c = .ok C →
    Completes (.add (.reg d) b c) s (WritesReg s d ((B.toNat + C.toNat) % 32768) 4) ∧
    Completes (.mult (.reg d) b c) s (WritesReg s d (B.toNat * C.toNat % 32768) 4)) ∧
  ∀ a b c, OperandFaults (.add a b c) ∧ OperandFaults (.mult a b c)

/-- MOD (R198): the unsigned remainder modulo 32768; a divisor of 0 stops the run. -/
def Obligations.ModRemainder : Prop :=
  (∀ (s : State) (d : Fin 8) (b c : Operand) (B C : Cell),
    resolve s b = .ok B → resolve s c = .ok C →
    (C ≠ 0 →
      Completes (.mod (.reg d) b c) s (WritesReg s d (B.toNat % C.toNat % 32768) 4)) ∧
    (C = 0 → Stops (.mod (.reg d) b c) s .arithmeticError 0)) ∧
  ∀ a b c, OperandFaults (.mod a b c)

/-- AND, OR and NOT (R200, R202, R204): bit by bit on bits 14 to 0; bit 15 of the result is 0. -/
def Obligations.BitwiseMasked : Prop :=
  (∀ (s : State) (d : Fin 8) (b c : Operand) (B C : Cell),
    resolve s b = .ok B → resolve s c = .ok C →
    Completes (.and (.reg d) b c) s (WritesReg s d ((B.toNat &&& C.toNat) % 32768) 4) ∧
    Completes (.or (.reg d) b c) s (WritesReg s d ((B.toNat ||| C.toNat) % 32768) 4)) ∧
  (∀ (s : State) (d : Fin 8) (b : Operand) (B : Cell), resolve s b = .ok B →
    Completes (.not (.reg d) b) s (WritesReg s d (32767 - B.toNat % 32768) 3)) ∧
  ∀ a b c, OperandFaults (.and a b c) ∧ OperandFaults (.or a b c) ∧ OperandFaults (.not a b)

/-- The instructions of R207 and the destination each names. -/
def Sys2Proof.Claims.arithmeticDest : Instr → Option Operand
  | .add a _ _  => some a
  | .mult a _ _ => some a
  | .mod a _ _  => some a
  | .and a _ _  => some a
  | .or a _ _   => some a
  | .not a _    => some a
  | _           => none

/-- Every result of ADD, MULT, MOD, AND, OR and NOT is a Word, and of EQ and GT 0 or 1, whatever the
registers hold (R207). -/
def Obligations.AluResultsAreWords : Prop :=
  ∀ (i : Instr) (s t : State) (d : Fin 8), exec i s = .next t →
    ((arithmeticDest i = some (.reg d) → ¬ Stopped t → (readReg t d).toNat ≤ 32767) ∧
    (∀ b c, i = .eq (.reg d) b c ∨ i = .gt (.reg d) b c →
      ¬ Stopped t → readReg t d = 0 ∨ readReg t d = 1))

/-! ### Control transfer (41_control.md) -/

/-- JMP, JT and JF (R152, R154, R156): JMP always jumps, JT on every value but 0, JF on 0 alone; JT and
JF check both operands whether or not they jump. -/
def Obligations.JumpsSetCursor : Prop :=
  (∀ (s : State) (a : Operand) (v : Cell), resolve s a = .ok v →
    Completes (.jmp a) s fun t => t.pc = v ∧ ChangesOnly [.pc] s t) ∧
  (∀ (s : State) (a b : Operand) (A B : Cell), resolve s a = .ok A → resolve s b = .ok B →
    Completes (.jt a b) s (fun t =>
      t.pc = (if A.toNat = 0 then s.pc + 3 else B) ∧ ChangesOnly [.pc] s t) ∧
    Completes (.jf a b) s (fun t =>
      t.pc = (if A.toNat = 0 then B else s.pc + 3) ∧ ChangesOnly [.pc] s t)) ∧
  ∀ a b, OperandFaults (.jmp a) ∧ OperandFaults (.jt a b) ∧ OperandFaults (.jf a b)

/-- CALL (R158): push `pc + 2`, then jump to the target resolved before the push. -/
def Obligations.CallPushesReturn : Prop :=
  (∀ (s : State) (a : Operand) (v : Cell), resolve s a = .ok v →
    (s.cfg.stackDepth ≠ some s.stack.length →
      Completes (.call a) s fun t =>
        t.stack = s.stack ++ [s.pc + 2] ∧ t.pc = v ∧ ChangesOnly [.pc, .stack] s t) ∧
    (s.cfg.stackDepth = some s.stack.length → Stops (.call a) s .stackOverflow 0)) ∧
  ∀ a, OperandFaults (.call a)

/-- RET (R160): pop the cursor; on an empty stack a terminal outcome, never `StackUnderflow`. -/
def Obligations.RetPopsOrTerminates : Prop :=
  ∀ s : State,
    (∀ st v, s.stack = st ++ [v] →
      Completes .ret s fun t => t.pc = v ∧ t.stack = st ∧ ChangesOnly [.pc, .stack] s t) ∧
    (s.stack = [] → Completes .ret s fun t => TerminalOutcome s t .returnedEmpty)

/-- "a CALL immediately followed eventually by a matching RET leaves call-stack depth unchanged": the RET
right after a CALL restores the stack and goes on after the CALL (R158, R160). -/
def Obligations.CallThenRetReturns : Prop :=
  ∀ (s t : State) (a : Operand), exec (.call a) s = .next t → ¬ Stopped t →
    Completes .ret t fun u => u.stack = s.stack ∧ u.pc = s.pc + 2 ∧ ChangesOnly [.pc] s u

/-- HALT (R150, R259): a terminal outcome; the cursor stays at the HALT when the run stops
(decision D9). -/
def Obligations.HaltIsTerminalOutcome : Prop :=
  ∀ s : State, Completes .halt s fun t => TerminalOutcome s t .halted

/-- NOOP (R162). -/
def Obligations.NoopOnlyAdvances : Prop :=
  ∀ s : State, Completes .noop s fun t => t.pc = s.pc + 1 ∧ ChangesOnly [.pc] s t

/-! ### Character I/O (44_io.md) -/

/-- OUT (R222): the value is appended as it is; nothing is flushed. -/
def Obligations.OutAppendsCode : Prop :=
  (∀ (s : State) (a : Operand) (v : Cell), resolve s a = .ok v →
    Completes (.out a) s fun t =>
      t.outBuf = s.outBuf ++ [v] ∧ t.pc = s.pc + 2 ∧ ChangesOnly [.pc, .outBuf] s t) ∧
  ∀ a, OperandFaults (.out a)

/-- IN with a queued code (R236): the head goes to the register; no request, flush or capture. -/
def Obligations.InTakesQueuedCode : Prop :=
  (∀ (s : State) (d : Fin 8) (c : Cell) (rest : List Cell), s.inQ = c :: rest →
    Completes (.inp (.reg d)) s fun t =>
      readReg t d = c ∧ t.inQ = rest ∧ t.pc = s.pc + 2 ∧
        ChangesOnly [.pc, .reg d, .inQ] s t) ∧
  ∀ a, OperandFaults (.inp a)

/-- IN with an empty queue makes an input request (R232): flush first, then capture the flushed state if
checkpoints are enabled (R262), then wait; the cursor stays at the IN. At a bounded history's limit the
capture stops the run. -/
def Obligations.InRequestsLine : Prop :=
  ∀ (s : State) (d : Fin 8), s.inQ = [] →
    (s.cfg.rewindEnable = false ∨ s.cfg.historyDepth ≠ some s.history.length →
      Completes (.inp (.reg d)) s fun t =>
        t.runState = .awaitLine d ∧ t.outBuf = [] ∧ t.emitted = s.emitted ++ s.outBuf ∧
        (∃ sent, t.ports = s.ports ++ sent ++ [.lineReq] ∧
          sent = if s.outBuf = [] then [] else [.flush s.outBuf]) ∧
        (s.cfg.rewindEnable = true →
          t.history = s.history ++ [{ pc := s.pc, mem := s.mem, reg := s.regs, stack := s.stack,
                                      outBuf := [], inQ := [] }]) ∧
        (s.cfg.rewindEnable = false → t.history = s.history) ∧
        ChangesOnly [.outBuf, .runState, .ports, .history] s t) ∧
    (s.cfg.rewindEnable = true → s.cfg.historyDepth = some s.history.length →
      Stops (.inp (.reg d)) s .historyOverflow 0)

/-- `Deliver(L)` of an ordinary line (R235, R237): the queue becomes the line and code 10, its head goes
to the waiting register, the cursor passes the IN and the core runs. -/
def Obligations.DeliverCompletesIn : Prop :=
  ∀ (s : State) (d : Fin 8) (L : List Cell) (c : Cell) (rest : List Cell),
    s.runState = .awaitLine d → (∀ x ∈ L, x.toNat ≤ 32767) →
    (s.cfg.rewindEnable = true → parseCommand L = none) → L ++ [10] = c :: rest →
    ∃ t, deliver s L = .next t ∧ readReg t d = c ∧ t.inQ = rest ∧ t.pc = s.pc + 2 ∧
      t.runState = .running ∧ t.ports = s.ports ++ [.line L] ∧
      ChangesOnly [.pc, .reg d, .inQ, .runState, .ports] s t

/-- What the port refuses has no step: a line with a code above 32767 (R234), and a line that no request
asked for (R240). -/
def Obligations.DeliveriesRefused : Prop :=
  ∀ (s : State) (L : List Cell),
    (Awaiting s → (∃ x ∈ L, 32767 < x.toNat) → deliver s L = .refused .lineNotWords) ∧
    (¬ Awaiting s → deliver s L = .refused .lineUnasked)

/-- The line source (R239): the script answers first, and its line is used up; only then the operator
answers, with any line of Words or not yet, and a core not answered changes nothing (R238). The fields
`script` and `linePolls`, and the step that changes the counter alone, are the model's (log 6). -/
def Obligations.LineSourceOrder : Prop :=
  ∀ s : State, Awaiting s →
    (∀ L rest, s.script = L :: rest → step s = deliver { s with script := rest } L) ∧
    (s.script = [] →
      (∃ t, step s = .next t ∧ ChangesOnly [.linePolls] s t) ∨
      (∃ (n : Nat) (L : List Word),
        step s = deliver { s with linePolls := n } (L.map (·.setWidth 16))))

/-! ### The checkpoint/rewind controller (60_exceptions.md) -/

/-- In the checkpoint-capable configuration the operator commands are exactly these lines, in the other
no line is one (R268; the spec's own decisions D13, D14, D15; the ASCII codes presumed by the spec,
log 5). -/
def Obligations.CommandGrammar : Prop :=
  ∀ (s : State) (L : List Cell),
    (s.cfg.rewindEnable = false → commandOf s L = none) ∧
    (s.cfg.rewindEnable = true → (commandOf s L = some .halt ↔ L = [104, 97, 108, 116])) ∧
    (∀ n, s.cfg.rewindEnable = true → (commandOf s L = some (.rewind n) ↔
      ∃ ds : List Cell, ds ≠ [] ∧ (∀ c ∈ ds, 48 ≤ c.toNat ∧ c.toNat ≤ 57) ∧
        L = [114, 101, 119, 105, 110, 100, 32] ++ ds ∧
        n = Nat.ofDigits 10 (ds.reverse.map fun c => c.toNat - 48)))

/-- The commands `halt` and `rewind N` (R270, R271, R265). `halt` is a fatal stop, `VoluntaryAbort`, that
bypasses rewind; the waiting IN does not complete. `rewind N` takes `N + 1` snapshots off the history and
restores the last of them; with fewer the run stops with `HistoryExhausted` and the history stays
whole. (That `N + 1` leave is the spec's own decision D12, the grammar D13, and the ASCII codes are
presumed by the spec, log 5.) -/
def Obligations.OperatorCommands : Prop :=
  ∀ s : State, Awaiting s → s.cfg.rewindEnable = true →
    (∃ t, deliver s [104, 97, 108, 116] = .next t ∧ StoppedWith s t .voluntaryAbort 0) ∧
    (∀ (L : List Cell) (n : Nat), parseCommand L = some (.rewind n) →
      (∀ h c dropped, s.history = h ++ c :: dropped → dropped.length = n →
        ∃ t, deliver s L = .next t ∧ RestoredTo s t h c []) ∧
      (s.history.length ≤ n →
        ∃ t, deliver s L = .next t ∧ StoppedWith s t .historyExhausted (BitVec.ofNat 16 n)))

/-- With `REWIND_ENABLE = false` no line is an operator command: every line of Words completes the
waiting IN, `halt` and `rewind 0` among them (R284, R268). -/
def Obligations.NoCommandsWithoutRewind : Prop :=
  ∀ (s : State) (d : Fin 8) (L : List Cell), s.runState = .awaitLine d →
    s.cfg.rewindEnable = false → (∀ x ∈ L, x.toNat ≤ 32767) →
    ∃ t, deliver s L = .next t ∧ t.runState = .running ∧ readReg t d :: t.inQ = L ++ [10] ∧
      t.history = s.history

/-- The IN re-executed after a restore requests again at once: it captures a snapshot equal to the one
restored and emits nothing, so the history is as when that snapshot was first captured (R266). -/
def Obligations.RestoredInRequestsAgain : Prop :=
  ∀ (s : State) (n : Nat) (h dropped : List Snapshot) (c : Snapshot),
    BufferInv s → BoundInv s → CheckpointInv s →
    s.history = h ++ c :: dropped → dropped.length = n →
    ∃ (d : Fin 8) (t : State), step (restore s n) = .next t ∧ t.runState = .awaitLine d ∧
      t.history = h ++ [c] ∧ t.pc = c.pc ∧ t.mem = c.mem ∧ t.regs = c.reg ∧ t.stack = c.stack ∧
      t.emitted = s.emitted

/-- "restoring a Snapshot reproduces bit-identical cursor, memory, registers, call stack, and input queue
as captured, even after further mutation" (R269, R76, R263): the snapshot that an IN captured from `s`,
restored from ANY later state that still holds it, gives back the Machine State of `s`. -/
def Obligations.CaptureRestoreRoundTrip : Prop :=
  ∀ (s t u : State) (d : Fin 8) (h dropped : List Snapshot) (c : Snapshot),
    s.inQ = [] → s.cfg.rewindEnable = true → exec (.inp (.reg d)) s = .next t →
    t.runState = .awaitLine d → t.history = h ++ [c] → u.history = h ++ c :: dropped →
    (restore u dropped.length).pc = s.pc ∧ (restore u dropped.length).mem = s.mem ∧
    (restore u dropped.length).regs = s.regs ∧ (restore u dropped.length).stack = s.stack ∧
    (restore u dropped.length).inQ = s.inQ ∧ (restore u dropped.length).history = s.history

/-- Once a snapshot has been captured, a terminal outcome never stops the run with `HistoryExhausted`
(R266), and every step that does not stop the run keeps it so. -/
def Obligations.CheckpointNeverExhausted : Prop :=
  ∀ s t : State, s.cfg.rewindEnable = true → CheckpointInv s → HasCheckpoint s →
    step s = .next t →
    (Stopped t ∨ HasCheckpoint t) ∧
    (s.runState = .running → t.runState ≠ .stopped .historyExhausted)

/-! ### Faults, stops and status -/

/-- The fields of STATUS in each run state (R40), every code of R41, and its kinds: the causes 1, 2 and 3
are clean stops and all others fatal. (The encoding is the spec's own decision D26.) -/
def Obligations.StatusRegisterFields : Prop :=
  ∀ s : State,
    (s.runState = .running → s.status.state = 0 ∧ s.status.dest = 0 ∧ s.status.cause = 0) ∧
    (∀ d : Fin 8, s.runState = .awaitLine d →
      s.status.state = 1 ∧ s.status.dest.toNat = d.val ∧ s.status.cause = 0) ∧
    (∀ c, s.runState = .stopped c →
      s.status.state = 2 ∧ s.status.dest = 0 ∧ s.status.cause.toNat = (match c with
        | .halted => 1 | .returnedEmpty => 2 | .exited => 3 | .decodeError => 16
        | .invalidOperand => 17 | .invalidDestination => 18 | .operandFetchOutOfRange => 19
        | .stackUnderflow => 20 | .stackOverflow => 21 | .arithmeticError => 22
        | .addressOutOfRange => 23 | .voluntaryAbort => 24 | .historyExhausted => 25
        | .historyOverflow => 26)) ∧
    s.status.faultPc = s.faultPc ∧ s.status.faultWord = s.faultWord ∧
    (∀ c : Cause, c.fatal = false ↔ c = .halted ∨ c = .returnedEmpty ∨ c = .exited)

/-- Every stop is precise (R257, R128; decision D22): whatever the cause, the run state and STATUS are set, the
Output Buffer is emitted, and nothing else of the state changes (of a waiting core the host's own
script and counter move). -/
def Obligations.StopsArePrecise : Prop :=
  ∀ (s t : State) (c : Cause), step s = .next t → t.runState = .stopped c →
    (s.runState = .running → StoppedWith s t c t.faultWord) ∧
    (Awaiting s → StoppedWith { s with script := t.script, linePolls := t.linePolls } t c t.faultWord)

/-- Where a step exists: a running core always has one (R303), and `STOPPED` is final, no step leaves it
(R35). That a waiting core has one too, unless the script offers a line that the port refuses (R234),
is the model's choice and no rule of the spec: where the host delivers no line, the model's step changes
its counter alone (log 6). By R303 such a core moves only when the host delivers. -/
def Obligations.WhereStepsExist : Prop :=
  ∀ s : State,
    (s.runState = .running → ∃ t, step s = .next t) ∧
    (Awaiting s → (∀ L ∈ s.script.head?, isLine L = true) → ∃ t, step s = .next t) ∧
    (∀ c, s.runState = .stopped c → step s = .fault (.runStopped c))

/-! ### Whole-machine rules -/

/-- A register is written only through a destination operand, by IN's delivery, or by a restore (R23). -/
def Obligations.RegistersWrittenByDest : Prop :=
  ∀ (s t : State) (r : Fin 8), step s = .next t → readReg t r ≠ readReg s r →
    (∃ i, s.runState = .running ∧ fetch s = .ok i ∧ (Role.dest, Operand.reg r) ∈ i.operands) ∨
    s.runState = .awaitLine r ∨
    (∃ c ∈ s.history, t.regs = c.reg ∧ t.pc = c.pc)

/-- Memory is written by WMEM and by a restore only (R21). -/
def Obligations.MemoryWrittenByWmem : Prop :=
  ∀ (s t : State) (a : Nat), step s = .next t → readMem t a ≠ readMem s a →
    (∃ x y k, s.runState = .running ∧ fetch s = .ok (.wmem x y) ∧ resolve s x = .ok k ∧
      k.toNat = a) ∨
    (∃ c ∈ s.history, t.mem = c.mem ∧ t.pc = c.pc)

/-- The call stack is written only by PUSH, POP, CALL and RET, and replaced by a restore (R27). -/
def Obligations.StackWrittenByStackOps : Prop :=
  ∀ s t : State, step s = .next t → t.stack ≠ s.stack →
    (∃ i, s.runState = .running ∧ fetch s = .ok i ∧
      ((∃ a, i = .push a) ∨ (∃ a, i = .pop a) ∨ (∃ a, i = .call a) ∨ i = .ret)) ∨
    (∃ c ∈ s.history, t.stack = c.stack ∧ t.pc = c.pc)

/-- The core executes an OUT that appends the code `v` (R222). -/
def Sys2Proof.Claims.RunsOut (s : State) (v : Cell) : Prop :=
  s.runState = .running ∧ ∃ a, fetch s = .ok (.out a) ∧ resolve s a = .ok v

/-- "no character is ever dropped or duplicated" (R224): a step that runs an OUT appends its code to
what is emitted and pending together, and every other step leaves that sequence as it is, restores
among them (R226, R267). -/
def Obligations.NoCharacterLost : Prop :=
  ∀ s t : State, BufferInv s → step s = .next t →
    (∀ v, RunsOut s v → t.emitted ++ t.outBuf = s.emitted ++ s.outBuf ++ [v]) ∧
    ((∀ v, ¬ RunsOut s v) → t.emitted ++ t.outBuf = s.emitted ++ s.outBuf)

/-- What has been flushed stays emitted; no step takes a code back (R226). -/
def Obligations.EmittedOnlyGrows : Prop :=
  ∀ s t : State, step s = .next t → s.emitted <+: t.emitted

/-- A stored snapshot is never changed (R263): a step either cuts the history's tail or appends one
snapshot of the live state. -/
def Obligations.HistoryAppendOnly : Prop :=
  ∀ s t : State, step s = .next t →
    t.history <+: s.history ∨
    ∃ c, t.history = s.history ++ [c] ∧ c.pc = s.pc ∧ c.mem = s.mem ∧ c.reg = s.regs ∧
      c.stack = s.stack ∧ t.runState ≠ .running

/-- No instruction sees the history but through a terminal outcome or an input request, and none sees
the script or the port transactions so far (R38, R45): with any others it goes the same way, leaves the
history and the script it was given, and sends the same transactions. Left aside are HALT, RET on an
empty stack and IN on an empty queue. (The fields `script` and `ports` are the model's, log 6 and log
3.) -/
def Obligations.HistoryInvisible : Prop :=
  ∀ (i : Instr) (s t : State), i ≠ .halt → (i = .ret → s.stack ≠ []) →
    (∀ a, i = .inp a → s.inQ ≠ []) → exec i s = .next t →
    ∃ sent, t.ports = s.ports ++ sent ∧
      ∀ (h : List Snapshot) (q : List (List Cell)) (p : List PortEvent),
        exec i { s with history := h, script := q, ports := p } =
          .next { t with history := h, script := q, ports := p ++ sent }

/-- No step changes the configuration (R43: "fixed for a run"). That it is a field of the state is the
model's choice (log 2). -/
def Obligations.ConfigurationFixed : Prop :=
  ∀ s t : State, step s = .next t → t.cfg = s.cfg

/-! ### Invariants -/

/-- Every step keeps the canonical form of the live memory and of every snapshot's (the form is the
model's, log 1). -/
def Obligations.MemoryInvKept : Prop :=
  ∀ s t : State, MemoryInv s → step s = .next t → MemoryInv t

/-- Every step keeps the buffer invariant (R32, R262, R232, R225). -/
def Obligations.BufferInvKept : Prop :=
  ∀ s t : State, BufferInv s → step s = .next t → BufferInv t

/-- Every step keeps `FAULT_PC` and `FAULT_WORD` at 0 while the run is not stopped (R40). -/
def Obligations.StatusInvKept : Prop :=
  ∀ s t : State, StatusInv s → step s = .next t → StatusInv t

/-- Every step keeps the bounds of the stack and of the history (R6, R28, R262). -/
def Obligations.BoundInvKept : Prop :=
  ∀ s t : State, BoundInv s → step s = .next t → BoundInv t

/-- Every step keeps the checkpoint invariant (R262, R232, R271, R284). -/
def Obligations.CheckpointInvKept : Prop :=
  ∀ s t : State, CheckpointInv s → step s = .next t → CheckpointInv t

/-- Every step keeps the line discipline (R240). -/
def Obligations.PortInvKept : Prop :=
  ∀ s t : State, PortInv s → step s = .next t → PortInv t

/-! ### Reset and load (70_reset_and_hazards.md) -/

/-- The invariants hold right after reset with any accepted image, configuration and script. -/
def Obligations.InvariantsAfterReset : Prop :=
  ∀ (cfg : Cfg) (script : List (List Cell)) (bytes : List (BitVec 8)) (s : State),
    boot cfg script bytes = .ok s →
    MemoryInv s ∧ BufferInv s ∧ StatusInv s ∧ BoundInv s ∧ CheckpointInv s ∧ PortInv s

/-- The image load (R291): an odd length and more than 32768 words are refused; else cell `i` holds
byte 2i + 256 * byte 2i+1, all 16 bits kept, and every cell after the image 0. (Decisions
D1, D19.) That the memory is canonical is the model's own form (log 1). -/
def Obligations.LoadPlacesImage : Prop :=
  ∀ bytes : List (BitVec 8),
    (bytes.length % 2 = 1 → load bytes = .error .oddLength) ∧
    (bytes.length % 2 = 0 → 65536 < bytes.length → load bytes = .error .tooLarge) ∧
    (bytes.length % 2 = 0 → bytes.length ≤ 65536 → ∃ m, load bytes = .ok m ∧ m.wf ∧
      (∀ i (h : 2 * i + 1 < bytes.length),
        (m.read i).toNat = (bytes[2 * i]).toNat + 256 * (bytes[2 * i + 1]).toNat) ∧
      (∀ a, bytes.length ≤ 2 * a → m.read a = 0))

/-- The reset values (R47): what every piece of state holds when a run starts. That the cursor starts at
0 in RUNNING is the spec's own decision D8. -/
def Obligations.ResetValues : Prop :=
  ∀ (cfg : Cfg) (script : List (List Cell)) (bytes : List (BitVec 8)) (m : Memory),
    load bytes = .ok m →
    ∃ s, boot cfg script bytes = .ok s ∧ s.mem = m ∧ (∀ r : Fin 8, readReg s r = 0) ∧ s.pc = 0 ∧
      s.stack = [] ∧ s.outBuf = [] ∧ s.inQ = [] ∧ s.history = [] ∧ s.runState = .running ∧
      s.status = { state := 0, dest := 0, cause := 0, faultPc := 0, faultWord := 0 } ∧
      s.cfg = cfg ∧ s.script = script
end

