-- ==== Sys2Proof/Laws/Memory.lean ====
section
/-! SUPPORT. Memory: read after write, and that every memory operation keeps the canonical form. -/

namespace Sys2Proof.Machine

@[simp] theorem Memory.read_nil (a : Nat) : Memory.read [] a = 0 := rfl

@[simp] theorem Memory.wf_nil : Memory.wf [] := by simp [Memory.wf]

theorem Memory.wf_cons {p : Nat × Cell} {m : Memory} :
    Memory.wf (p :: m) ↔
      (∀ q ∈ m, p.1 < q.1) ∧ p.1 < Config.memSize ∧ p.2 ≠ 0 ∧ Memory.wf m := by
  simp only [Memory.wf, List.pairwise_cons, List.mem_cons, forall_eq_or_imp]
  tauto

/-- An address below every listed one is unlisted. -/
theorem Memory.read_below {m : Memory} {a : Nat} (h : ∀ q ∈ m, a < q.1) : m.read a = 0 := by
  induction m with
  | nil => rfl
  | cons p m ih =>
    have hp := h p (by simp)
    simp only [Memory.read, show p.1 ≠ a by omega, if_false]
    exact ih fun q hq => h q (by simp [hq])

/-- A cell that is not 0 has an address in range. -/
theorem Memory.read_above {m : Memory} (hm : m.wf) {a : Nat} (ha : Config.memSize ≤ a) :
    m.read a = 0 := by
  induction m with
  | nil => rfl
  | cons p m ih =>
    obtain ⟨-, hlt, -, hm'⟩ := Memory.wf_cons.mp hm
    simp only [Memory.read, show p.1 ≠ a by omega, if_false]
    exact ih hm'

/-- The keys of a written memory. -/
theorem Memory.mem_write {m : Memory} {a : Nat} {v : Cell} {q : Nat × Cell}
    (h : q ∈ m.write a v) : q ∈ m ∨ q = (a, v) := by
  induction m with
  | nil => simp only [Memory.write] at h; split at h <;> simp_all
  | cons p m ih =>
    simp only [Memory.write] at h
    split at h
    · rcases List.mem_cons.mp h with h | h
      · simp [h]
      · rcases ih h with h | h <;> simp [h]
    · split at h <;> split at h <;> simp_all <;> tauto

/-- A write past an entry with a lower address. -/
theorem Memory.write_past {p : Nat × Cell} {a : Nat} (h : p.1 < a) (m : Memory) (v : Cell) :
    Memory.write (p :: m) a v = p :: Memory.write m a v := by
  simp [Memory.write, h]

/-- A write at an entry with the same address. -/
theorem Memory.write_at (w : Cell) (m : Memory) (a : Nat) (v : Cell) :
    Memory.write ((a, w) :: m) a v = if v = 0 then m else (a, v) :: m := by
  simp [Memory.write]

/-- A write before an entry with a higher address. -/
theorem Memory.write_before {p : Nat × Cell} {a : Nat} (h : a < p.1) (m : Memory) (v : Cell) :
    Memory.write (p :: m) a v = if v = 0 then p :: m else (a, v) :: p :: m := by
  simp [Memory.write, show ¬ p.1 < a by omega, show p.1 ≠ a by omega]

/-- A read after a write to the same address gives the value written. -/
theorem Memory.read_write_same {m : Memory} (hm : m.wf) (a : Nat) (v : Cell) :
    (m.write a v).read a = v := by
  induction m with
  | nil => simp only [Memory.write]; split <;> simp_all [Memory.read]
  | cons p m ih =>
    obtain ⟨hlt, -, -, hm'⟩ := Memory.wf_cons.mp hm
    obtain ⟨k, w⟩ := p
    rcases Nat.lt_trichotomy k a with h | rfl | h
    · rw [Memory.write_past h]
      simpa only [Memory.read, show k ≠ a by omega, if_false] using ih hm'
    · rw [Memory.write_at]
      split
      · rename_i hv; rw [hv]; exact Memory.read_below hlt
      · simp [Memory.read]
    · rw [Memory.write_before h]
      split
      · rename_i hv
        rw [hv]
        refine Memory.read_below fun q hq => ?_
        rcases List.mem_cons.mp hq with rfl | hq
        · exact h
        · exact Nat.lt_trans h (hlt q hq)
      · simp [Memory.read]

/-- A write leaves every other address alone. -/
theorem Memory.read_write_other (m : Memory) {a b : Nat} (v : Cell) (hab : b ≠ a) :
    (m.write a v).read b = m.read b := by
  induction m with
  | nil => simp only [Memory.write]; split <;> simp [Memory.read, hab.symm]
  | cons p m ih =>
    obtain ⟨k, w⟩ := p
    rcases Nat.lt_trichotomy k a with h | rfl | h
    · rw [Memory.write_past h]; simp only [Memory.read, ih]
    · rw [Memory.write_at]; split <;> simp [Memory.read, hab.symm]
    · rw [Memory.write_before h]; split <;> simp [Memory.read, hab.symm]

/-- A write to an address of the space keeps the canonical form. -/
theorem Memory.write_wf {m : Memory} (hm : m.wf) {a : Nat} (ha : a < Config.memSize) (v : Cell) :
    (m.write a v).wf := by
  induction m with
  | nil =>
    simp only [Memory.write]
    split
    · exact Memory.wf_nil
    · rename_i h
      exact Memory.wf_cons.mpr ⟨by simp, ha, h, Memory.wf_nil⟩
  | cons p m ih =>
    have hm0 := hm
    obtain ⟨hlt, hp, hv, hm'⟩ := Memory.wf_cons.mp hm
    obtain ⟨k, w⟩ := p
    rcases Nat.lt_trichotomy k a with h | rfl | h
    · rw [Memory.write_past h]
      refine Memory.wf_cons.mpr ⟨fun q hq => ?_, hp, hv, ih hm'⟩
      rcases Memory.mem_write hq with hq | rfl
      · exact hlt q hq
      · exact h
    · rw [Memory.write_at]
      split
      · exact hm'
      · rename_i h0; exact Memory.wf_cons.mpr ⟨hlt, ha, h0, hm'⟩
    · rw [Memory.write_before h]
      split
      · exact hm0
      · rename_i h0
        refine Memory.wf_cons.mpr ⟨fun q hq => ?_, ha, h0, hm0⟩
        rcases List.mem_cons.mp hq with rfl | hq
        · exact h
        · exact Nat.lt_trans h (hlt q hq)

/-- Two canonical memories that read the same are the same list. -/
theorem Memory.ext_read {m n : Memory} (hm : m.wf) (hn : n.wf) (h : ∀ a, m.read a = n.read a) :
    m = n := by
  induction m generalizing n with
  | nil =>
    cases n with
    | nil => rfl
    | cons q n =>
      obtain ⟨-, -, hv, -⟩ := Memory.wf_cons.mp hn
      have := h q.1
      simp only [Memory.read, if_true] at this
      exact absurd this.symm hv
  | cons p m ih =>
    obtain ⟨hlt, -, hv, hm'⟩ := Memory.wf_cons.mp hm
    cases n with
    | nil =>
      have := h p.1
      simp only [Memory.read, if_true] at this
      exact absurd this hv
    | cons q n =>
      obtain ⟨hlt', -, hv', hn'⟩ := Memory.wf_cons.mp hn
      have hk : p.1 = q.1 := by
        rcases Nat.lt_trichotomy p.1 q.1 with hlt1 | heq | hlt1
        · have := h p.1
          rw [Memory.read_below (m := q :: n)] at this
          · simp only [Memory.read, if_true] at this; exact absurd this hv
          · intro r hr
            rcases List.mem_cons.mp hr with hr | hr
            · rw [hr]; exact hlt1
            · have := hlt' r hr; omega
        · exact heq
        · have := h q.1
          rw [Memory.read_below (m := p :: m)] at this
          · simp only [Memory.read, if_true] at this; exact absurd this.symm hv'
          · intro r hr
            rcases List.mem_cons.mp hr with hr | hr
            · rw [hr]; exact hlt1
            · have := hlt r hr; omega
      have hval : p.2 = q.2 := by
        have := h p.1
        simpa [Memory.read, hk] using this
      have hpq : p = q := Prod.ext hk hval
      subst hpq
      congr 1
      refine ih hm' hn' fun a => ?_
      by_cases ha : p.1 = a
      · subst ha
        rw [Memory.read_below hlt, Memory.read_below hlt']
      · have := h a
        simpa [Memory.read, ha] using this

end Sys2Proof.Machine
end

