-- ==== Sys2Proof/Laws/State.lean ====
section
/-! SUPPORT. One lemma per field per update of the state, so that no proof unfolds a record update. -/

namespace Sys2Proof.Machine

/-! #### `writeMem` -/

@[simp] theorem writeMem_pc (s : State) (a : Nat) (v : Cell) :
    (writeMem s a v).pc = s.pc := rfl
@[simp] theorem writeMem_mem (s : State) (a : Nat) (v : Cell) :
    (writeMem s a v).mem = s.mem.write a v := rfl
@[simp] theorem writeMem_regs (s : State) (a : Nat) (v : Cell) :
    (writeMem s a v).regs = s.regs := rfl
@[simp] theorem writeMem_stack (s : State) (a : Nat) (v : Cell) :
    (writeMem s a v).stack = s.stack := rfl
@[simp] theorem writeMem_outBuf (s : State) (a : Nat) (v : Cell) :
    (writeMem s a v).outBuf = s.outBuf := rfl
@[simp] theorem writeMem_inQ (s : State) (a : Nat) (v : Cell) :
    (writeMem s a v).inQ = s.inQ := rfl
@[simp] theorem writeMem_history (s : State) (a : Nat) (v : Cell) :
    (writeMem s a v).history = s.history := rfl
@[simp] theorem writeMem_runState (s : State) (a : Nat) (v : Cell) :
    (writeMem s a v).runState = s.runState := rfl
@[simp] theorem writeMem_faultPc (s : State) (a : Nat) (v : Cell) :
    (writeMem s a v).faultPc = s.faultPc := rfl
@[simp] theorem writeMem_faultWord (s : State) (a : Nat) (v : Cell) :
    (writeMem s a v).faultWord = s.faultWord := rfl
@[simp] theorem writeMem_cfg (s : State) (a : Nat) (v : Cell) :
    (writeMem s a v).cfg = s.cfg := rfl
@[simp] theorem writeMem_ports (s : State) (a : Nat) (v : Cell) :
    (writeMem s a v).ports = s.ports := rfl
@[simp] theorem writeMem_script (s : State) (a : Nat) (v : Cell) :
    (writeMem s a v).script = s.script := rfl
@[simp] theorem writeMem_linePolls (s : State) (a : Nat) (v : Cell) :
    (writeMem s a v).linePolls = s.linePolls := rfl

/-! #### `writeReg` -/

@[simp] theorem writeReg_pc (s : State) (r : Fin 8) (v : Cell) :
    (writeReg s r v).pc = s.pc := rfl
@[simp] theorem writeReg_mem (s : State) (r : Fin 8) (v : Cell) :
    (writeReg s r v).mem = s.mem := rfl
@[simp] theorem writeReg_regs (s : State) (r : Fin 8) (v : Cell) :
    (writeReg s r v).regs = s.regs.set r v := rfl
@[simp] theorem writeReg_stack (s : State) (r : Fin 8) (v : Cell) :
    (writeReg s r v).stack = s.stack := rfl
@[simp] theorem writeReg_outBuf (s : State) (r : Fin 8) (v : Cell) :
    (writeReg s r v).outBuf = s.outBuf := rfl
@[simp] theorem writeReg_inQ (s : State) (r : Fin 8) (v : Cell) :
    (writeReg s r v).inQ = s.inQ := rfl
@[simp] theorem writeReg_history (s : State) (r : Fin 8) (v : Cell) :
    (writeReg s r v).history = s.history := rfl
@[simp] theorem writeReg_runState (s : State) (r : Fin 8) (v : Cell) :
    (writeReg s r v).runState = s.runState := rfl
@[simp] theorem writeReg_faultPc (s : State) (r : Fin 8) (v : Cell) :
    (writeReg s r v).faultPc = s.faultPc := rfl
@[simp] theorem writeReg_faultWord (s : State) (r : Fin 8) (v : Cell) :
    (writeReg s r v).faultWord = s.faultWord := rfl
@[simp] theorem writeReg_cfg (s : State) (r : Fin 8) (v : Cell) :
    (writeReg s r v).cfg = s.cfg := rfl
@[simp] theorem writeReg_ports (s : State) (r : Fin 8) (v : Cell) :
    (writeReg s r v).ports = s.ports := rfl
@[simp] theorem writeReg_script (s : State) (r : Fin 8) (v : Cell) :
    (writeReg s r v).script = s.script := rfl
@[simp] theorem writeReg_linePolls (s : State) (r : Fin 8) (v : Cell) :
    (writeReg s r v).linePolls = s.linePolls := rfl

/-! #### `jump` -/

@[simp] theorem jump_pc (s : State) (target : Cell) :
    (jump s target).pc = target := rfl
@[simp] theorem jump_mem (s : State) (target : Cell) :
    (jump s target).mem = s.mem := rfl
@[simp] theorem jump_regs (s : State) (target : Cell) :
    (jump s target).regs = s.regs := rfl
@[simp] theorem jump_stack (s : State) (target : Cell) :
    (jump s target).stack = s.stack := rfl
@[simp] theorem jump_outBuf (s : State) (target : Cell) :
    (jump s target).outBuf = s.outBuf := rfl
@[simp] theorem jump_inQ (s : State) (target : Cell) :
    (jump s target).inQ = s.inQ := rfl
@[simp] theorem jump_history (s : State) (target : Cell) :
    (jump s target).history = s.history := rfl
@[simp] theorem jump_runState (s : State) (target : Cell) :
    (jump s target).runState = s.runState := rfl
@[simp] theorem jump_faultPc (s : State) (target : Cell) :
    (jump s target).faultPc = s.faultPc := rfl
@[simp] theorem jump_faultWord (s : State) (target : Cell) :
    (jump s target).faultWord = s.faultWord := rfl
@[simp] theorem jump_cfg (s : State) (target : Cell) :
    (jump s target).cfg = s.cfg := rfl
@[simp] theorem jump_ports (s : State) (target : Cell) :
    (jump s target).ports = s.ports := rfl
@[simp] theorem jump_script (s : State) (target : Cell) :
    (jump s target).script = s.script := rfl
@[simp] theorem jump_linePolls (s : State) (target : Cell) :
    (jump s target).linePolls = s.linePolls := rfl

/-! #### `advance` -/

@[simp] theorem advance_pc (s : State) (n : Nat) :
    (advance s n).pc = s.pc + BitVec.ofNat 16 n := rfl
@[simp] theorem advance_mem (s : State) (n : Nat) :
    (advance s n).mem = s.mem := rfl
@[simp] theorem advance_regs (s : State) (n : Nat) :
    (advance s n).regs = s.regs := rfl
@[simp] theorem advance_stack (s : State) (n : Nat) :
    (advance s n).stack = s.stack := rfl
@[simp] theorem advance_outBuf (s : State) (n : Nat) :
    (advance s n).outBuf = s.outBuf := rfl
@[simp] theorem advance_inQ (s : State) (n : Nat) :
    (advance s n).inQ = s.inQ := rfl
@[simp] theorem advance_history (s : State) (n : Nat) :
    (advance s n).history = s.history := rfl
@[simp] theorem advance_runState (s : State) (n : Nat) :
    (advance s n).runState = s.runState := rfl
@[simp] theorem advance_faultPc (s : State) (n : Nat) :
    (advance s n).faultPc = s.faultPc := rfl
@[simp] theorem advance_faultWord (s : State) (n : Nat) :
    (advance s n).faultWord = s.faultWord := rfl
@[simp] theorem advance_cfg (s : State) (n : Nat) :
    (advance s n).cfg = s.cfg := rfl
@[simp] theorem advance_ports (s : State) (n : Nat) :
    (advance s n).ports = s.ports := rfl
@[simp] theorem advance_script (s : State) (n : Nat) :
    (advance s n).script = s.script := rfl
@[simp] theorem advance_linePolls (s : State) (n : Nat) :
    (advance s n).linePolls = s.linePolls := rfl

/-! #### `note` -/

@[simp] theorem note_pc (s : State) (e : PortEvent) :
    (note s e).pc = s.pc := rfl
@[simp] theorem note_mem (s : State) (e : PortEvent) :
    (note s e).mem = s.mem := rfl
@[simp] theorem note_regs (s : State) (e : PortEvent) :
    (note s e).regs = s.regs := rfl
@[simp] theorem note_stack (s : State) (e : PortEvent) :
    (note s e).stack = s.stack := rfl
@[simp] theorem note_outBuf (s : State) (e : PortEvent) :
    (note s e).outBuf = s.outBuf := rfl
@[simp] theorem note_inQ (s : State) (e : PortEvent) :
    (note s e).inQ = s.inQ := rfl
@[simp] theorem note_history (s : State) (e : PortEvent) :
    (note s e).history = s.history := rfl
@[simp] theorem note_runState (s : State) (e : PortEvent) :
    (note s e).runState = s.runState := rfl
@[simp] theorem note_faultPc (s : State) (e : PortEvent) :
    (note s e).faultPc = s.faultPc := rfl
@[simp] theorem note_faultWord (s : State) (e : PortEvent) :
    (note s e).faultWord = s.faultWord := rfl
@[simp] theorem note_cfg (s : State) (e : PortEvent) :
    (note s e).cfg = s.cfg := rfl
@[simp] theorem note_ports (s : State) (e : PortEvent) :
    (note s e).ports = s.ports ++ [e] := rfl
@[simp] theorem note_script (s : State) (e : PortEvent) :
    (note s e).script = s.script := rfl
@[simp] theorem note_linePolls (s : State) (e : PortEvent) :
    (note s e).linePolls = s.linePolls := rfl

/-! #### `takeInput` -/

@[simp] theorem takeInput_pc (s : State) (d : Fin 8) (c : Cell) (rest : List Cell) :
    (takeInput s d c rest).pc = s.pc + 2 := rfl
@[simp] theorem takeInput_mem (s : State) (d : Fin 8) (c : Cell) (rest : List Cell) :
    (takeInput s d c rest).mem = s.mem := rfl
@[simp] theorem takeInput_regs (s : State) (d : Fin 8) (c : Cell) (rest : List Cell) :
    (takeInput s d c rest).regs = s.regs.set d c := rfl
@[simp] theorem takeInput_stack (s : State) (d : Fin 8) (c : Cell) (rest : List Cell) :
    (takeInput s d c rest).stack = s.stack := rfl
@[simp] theorem takeInput_outBuf (s : State) (d : Fin 8) (c : Cell) (rest : List Cell) :
    (takeInput s d c rest).outBuf = s.outBuf := rfl
@[simp] theorem takeInput_inQ (s : State) (d : Fin 8) (c : Cell) (rest : List Cell) :
    (takeInput s d c rest).inQ = rest := rfl
@[simp] theorem takeInput_history (s : State) (d : Fin 8) (c : Cell) (rest : List Cell) :
    (takeInput s d c rest).history = s.history := rfl
@[simp] theorem takeInput_runState (s : State) (d : Fin 8) (c : Cell) (rest : List Cell) :
    (takeInput s d c rest).runState = s.runState := rfl
@[simp] theorem takeInput_faultPc (s : State) (d : Fin 8) (c : Cell) (rest : List Cell) :
    (takeInput s d c rest).faultPc = s.faultPc := rfl
@[simp] theorem takeInput_faultWord (s : State) (d : Fin 8) (c : Cell) (rest : List Cell) :
    (takeInput s d c rest).faultWord = s.faultWord := rfl
@[simp] theorem takeInput_cfg (s : State) (d : Fin 8) (c : Cell) (rest : List Cell) :
    (takeInput s d c rest).cfg = s.cfg := rfl
@[simp] theorem takeInput_ports (s : State) (d : Fin 8) (c : Cell) (rest : List Cell) :
    (takeInput s d c rest).ports = s.ports := rfl
@[simp] theorem takeInput_script (s : State) (d : Fin 8) (c : Cell) (rest : List Cell) :
    (takeInput s d c rest).script = s.script := rfl
@[simp] theorem takeInput_linePolls (s : State) (d : Fin 8) (c : Cell) (rest : List Cell) :
    (takeInput s d c rest).linePolls = s.linePolls := rfl

/-! #### `resume` -/

@[simp] theorem resume_pc (s : State) (c : Snapshot) :
    (resume s c).pc = c.pc := rfl
@[simp] theorem resume_mem (s : State) (c : Snapshot) :
    (resume s c).mem = c.mem := rfl
@[simp] theorem resume_regs (s : State) (c : Snapshot) :
    (resume s c).regs = c.reg := rfl
@[simp] theorem resume_stack (s : State) (c : Snapshot) :
    (resume s c).stack = c.stack := rfl
@[simp] theorem resume_outBuf (s : State) (c : Snapshot) :
    (resume s c).outBuf = c.outBuf := rfl
@[simp] theorem resume_inQ (s : State) (c : Snapshot) :
    (resume s c).inQ = [] := rfl
@[simp] theorem resume_history (s : State) (c : Snapshot) :
    (resume s c).history = s.history := rfl
@[simp] theorem resume_runState (s : State) (c : Snapshot) :
    (resume s c).runState = .running := rfl
@[simp] theorem resume_faultPc (s : State) (c : Snapshot) :
    (resume s c).faultPc = s.faultPc := rfl
@[simp] theorem resume_faultWord (s : State) (c : Snapshot) :
    (resume s c).faultWord = s.faultWord := rfl
@[simp] theorem resume_cfg (s : State) (c : Snapshot) :
    (resume s c).cfg = s.cfg := rfl
@[simp] theorem resume_ports (s : State) (c : Snapshot) :
    (resume s c).ports = s.ports := rfl
@[simp] theorem resume_script (s : State) (c : Snapshot) :
    (resume s c).script = s.script := rfl
@[simp] theorem resume_linePolls (s : State) (c : Snapshot) :
    (resume s c).linePolls = s.linePolls := rfl

/-! #### `flush` and `stop` -/

@[simp] theorem flush_pc (s : State) : (flush s).pc = s.pc := by
  unfold flush; split <;> rfl
@[simp] theorem flush_mem (s : State) : (flush s).mem = s.mem := by
  unfold flush; split <;> rfl
@[simp] theorem flush_regs (s : State) : (flush s).regs = s.regs := by
  unfold flush; split <;> rfl
@[simp] theorem flush_stack (s : State) : (flush s).stack = s.stack := by
  unfold flush; split <;> rfl
@[simp] theorem flush_outBuf (s : State) : (flush s).outBuf = [] := by
  unfold flush; split <;> simp_all
@[simp] theorem flush_inQ (s : State) : (flush s).inQ = s.inQ := by
  unfold flush; split <;> rfl
@[simp] theorem flush_history (s : State) : (flush s).history = s.history := by
  unfold flush; split <;> rfl
@[simp] theorem flush_runState (s : State) : (flush s).runState = s.runState := by
  unfold flush; split <;> rfl
@[simp] theorem flush_faultPc (s : State) : (flush s).faultPc = s.faultPc := by
  unfold flush; split <;> rfl
@[simp] theorem flush_faultWord (s : State) : (flush s).faultWord = s.faultWord := by
  unfold flush; split <;> rfl
@[simp] theorem flush_cfg (s : State) : (flush s).cfg = s.cfg := by
  unfold flush; split <;> rfl
theorem flush_ports (s : State) :
    (flush s).ports = s.ports ++ (if s.outBuf = [] then [] else [.flush s.outBuf]) := by
  unfold flush; split <;> simp
@[simp] theorem flush_script (s : State) : (flush s).script = s.script := by
  unfold flush; split <;> rfl
@[simp] theorem flush_linePolls (s : State) : (flush s).linePolls = s.linePolls := by
  unfold flush; split <;> rfl
@[simp] theorem stop_pc (s : State) (cause : Cause) (info : Nat) :
    (stop s cause info).pc = s.pc := by
  simp [stop]
@[simp] theorem stop_mem (s : State) (cause : Cause) (info : Nat) :
    (stop s cause info).mem = s.mem := by
  simp [stop]
@[simp] theorem stop_regs (s : State) (cause : Cause) (info : Nat) :
    (stop s cause info).regs = s.regs := by
  simp [stop]
@[simp] theorem stop_stack (s : State) (cause : Cause) (info : Nat) :
    (stop s cause info).stack = s.stack := by
  simp [stop]
@[simp] theorem stop_outBuf (s : State) (cause : Cause) (info : Nat) :
    (stop s cause info).outBuf = [] := by
  simp [stop]
@[simp] theorem stop_inQ (s : State) (cause : Cause) (info : Nat) :
    (stop s cause info).inQ = s.inQ := by
  simp [stop]
@[simp] theorem stop_history (s : State) (cause : Cause) (info : Nat) :
    (stop s cause info).history = s.history := by
  simp [stop]
@[simp] theorem stop_runState (s : State) (cause : Cause) (info : Nat) :
    (stop s cause info).runState = .stopped cause := rfl
@[simp] theorem stop_faultPc (s : State) (cause : Cause) (info : Nat) :
    (stop s cause info).faultPc = s.pc := rfl
@[simp] theorem stop_faultWord (s : State) (cause : Cause) (info : Nat) :
    (stop s cause info).faultWord = BitVec.ofNat 16 info := rfl
@[simp] theorem stop_cfg (s : State) (cause : Cause) (info : Nat) :
    (stop s cause info).cfg = s.cfg := by
  simp [stop]
@[simp] theorem stop_ports (s : State) (cause : Cause) (info : Nat) :
    (stop s cause info).ports = (flush s).ports := rfl
@[simp] theorem stop_script (s : State) (cause : Cause) (info : Nat) :
    (stop s cause info).script = s.script := by
  simp [stop]
@[simp] theorem stop_linePolls (s : State) (cause : Cause) (info : Nat) :
    (stop s cause info).linePolls = s.linePolls := by
  simp [stop]

end Sys2Proof.Machine
end

