-- ==== Sys2Proof/Laws/Ops.lean ====
section
/-! SUPPORT. What each shared operation can do, said once; the proofs cite these and do not unfold the
operations. -/

namespace Sys2Proof.Machine

/-! ### Sequencing of faults -/

@[simp] theorem ok_bind {α β : Type} (a : α) (f : α → Except Trap β) :
    (Except.ok a >>= f) = f a := rfl

@[simp] theorem error_bind {α β : Type} (e : Trap) (f : α → Except Trap β) :
    (Except.error e >>= f) = Except.error e := rfl

@[simp] theorem settle_ok (s t : State) : settle s (.ok t) = .next t := rfl

@[simp] theorem settle_error (s : State) (e : Trap) : settle s (.error e) = raise s e := rfl

/-- An instruction ends in its effect or in the stop of the state it began in. -/
theorem settle_cases {s t : State} {e : Effect} (h : settle s e = .next t) :
    e = .ok t ∨ ∃ tr, e = .error tr ∧ t = stop s tr.cause tr.info := by
  cases e with
  | ok u => exact .inl (by simpa using h)
  | error tr => exact .inr ⟨tr, rfl, by simpa [raise, eq_comm] using h⟩

/-- It always ends in a next state. -/
theorem settle_isNext (s : State) (e : Effect) : ∃ t, settle s e = .next t := by
  cases e with
  | ok u => exact ⟨u, rfl⟩
  | error tr => exact ⟨_, rfl⟩

/-! ### Registers and memory -/

@[simp] theorem readReg_writeReg_same (s : State) (r : Fin 8) (v : Cell) :
    readReg (writeReg s r v) r = v := by
  simp [readReg]

theorem readReg_writeReg_other (s : State) {r q : Fin 8} (v : Cell) (h : q ≠ r) :
    readReg (writeReg s r v) q = readReg s q := by
  have hv : r.val ≠ q.val := fun e => h (Fin.ext e.symm)
  simp [readReg, hv]

/-- Equal register files read the same. -/
theorem readReg_congr {s t : State} (h : t.regs = s.regs) (r : Fin 8) : readReg t r = readReg s r := by
  simp [readReg, h]

/-- Equal memories read the same. -/
theorem readMem_congr {s t : State} (h : t.mem = s.mem) (a : Nat) : readMem t a = readMem s a := by
  simp [readMem, h]

theorem readMem_writeMem_same {s : State} (h : s.mem.wf) (a : Nat) (v : Cell) :
    readMem (writeMem s a v) a = v := Memory.read_write_same h a v

theorem readMem_writeMem_other (s : State) {a b : Nat} (v : Cell) (h : b ≠ a) :
    readMem (writeMem s a v) b = readMem s b := Memory.read_write_other _ v h

theorem inMemory_iff (a : Cell) : inMemory a = true ↔ a.toNat ≤ 32767 := by simp [inMemory]

/-! ### The port transactions -/

theorem emitted_of_ports {s t : State} (h : t.ports = s.ports) : t.emitted = s.emitted := by
  simp [State.emitted, h]

@[simp] theorem emitted_note (s : State) (e : PortEvent) :
    (note s e).emitted = s.emitted ++ e.console := by
  simp [State.emitted]

/-- A flush emits exactly the pending codes (R224). -/
@[simp] theorem emitted_flush (s : State) : (flush s).emitted = s.emitted ++ s.outBuf := by
  simp only [State.emitted, flush_ports]
  split <;> simp_all [PortEvent.console]

@[simp] theorem emitted_stop (s : State) (c : Cause) (n : Nat) :
    (stop s c n).emitted = s.emitted ++ s.outBuf := by
  rw [emitted_of_ports (s := flush s) (stop_ports s c n), emitted_flush]

/-- A state whose transactions are those of a flush emitted the pending codes. -/
theorem emitted_of_flush {s t : State} (h : t.ports = (flush s).ports) :
    t.emitted = s.emitted ++ s.outBuf :=
  (emitted_of_ports (s := flush s) h).trans (emitted_flush s)

/-- A delivered line or a request puts nothing on the console. -/
theorem emitted_of_silent {s t : State} {e : PortEvent} (h : t.ports = s.ports ++ [e])
    (he : e.console = []) : t.emitted = s.emitted := by
  simp [State.emitted, h, he]

/-- A second flush does nothing. -/
@[simp] theorem flush_flush (s : State) : flush (flush s) = flush s := by
  rw [flush, if_pos (flush_outBuf s)]

/-- A stop right after a flush is the stop alone. -/
@[simp] theorem stop_flush (s : State) (c : Cause) (n : Nat) : stop (flush s) c n = stop s c n := by
  simp [stop]

/-! ### The call stack -/

theorem pushStack_cases {s t : State} {v : Cell} (h : pushStack s v = .ok t) :
    s.cfg.stackDepth ≠ some s.stack.length ∧ t = { s with stack := s.stack ++ [v] } := by
  unfold pushStack at h
  split at h
  · simp at h
  · simp_all

theorem popStack_concat {s : State} {st : List Cell} {v : Cell} (h : s.stack = st ++ [v]) :
    popStack s = .ok (v, { s with stack := st }) := by
  simp [popStack, h]

theorem popStack_empty {s : State} (h : s.stack = []) :
    popStack s = .error ⟨.stackUnderflow, 0⟩ := by
  simp [popStack, h]

/-- A list is empty or ends in an element. -/
theorem eq_nil_or_snoc {α : Type} (l : List α) : l = [] ∨ ∃ st v, l = st ++ [v] := by
  rcases List.eq_nil_or_concat l with h | ⟨st, v, h⟩
  · exact .inl h
  · exact .inr ⟨st, v, by simpa using h⟩

/-! ### Capture, restore and the terminal outcome -/

theorem capture_cases {s t : State} (h : capture s = .ok t) :
    s.cfg.historyDepth ≠ some s.history.length ∧
      t = { s with history := s.history ++ [snapshot s] } := by
  unfold capture at h
  split at h
  · simp at h
  · simp_all

/-- A restore that finds enough snapshots (R265). -/
theorem restore_of_split {s : State} {h dropped : List Snapshot} {c : Snapshot}
    (hs : s.history = h ++ c :: dropped) :
    restore s dropped.length = resume { s with history := h } c := by
  have hlen : s.history.length = h.length + (dropped.length + 1) := by simp [hs]
  have hk : s.history.length - (dropped.length + 1) = h.length := by omega
  simp only [restore, hk]
  rw [if_neg (by omega), hs]
  simp

/-- A restore that finds too few (R265). -/
theorem restore_of_short {s : State} {n : Nat} (h : s.history.length ≤ n) :
    restore s n = stop s .historyExhausted n := by
  simp only [restore]
  rw [if_pos (by omega)]

/-- A history splits before its `n+1` last snapshots, or is too short. -/
theorem history_split (l : List Snapshot) (n : Nat) :
    l.length ≤ n ∨ ∃ h c dropped, l = h ++ c :: dropped ∧ dropped.length = n := by
  rcases Nat.lt_or_ge n l.length with hn | hn
  · have hk : l.length - (n + 1) < l.length := by omega
    refine .inr ⟨l.take (l.length - (n + 1)), l[l.length - (n + 1)],
      l.drop (l.length - (n + 1) + 1), ?_, ?_⟩
    · rw [← List.drop_eq_getElem_cons, List.take_append_drop]
    · simp only [List.length_drop]; omega
  · exact .inl hn

/-- Every restore is one of the two. -/
theorem restore_cases (s : State) (n : Nat) :
    (s.history.length ≤ n ∧ restore s n = stop s .historyExhausted n) ∨
    ∃ h c dropped, s.history = h ++ c :: dropped ∧ dropped.length = n ∧
      restore s n = resume { s with history := h } c := by
  rcases history_split s.history n with h | ⟨h, c, dropped, hs, rfl⟩
  · exact .inl ⟨h, restore_of_short h⟩
  · exact .inr ⟨h, c, dropped, hs, rfl, restore_of_split hs⟩

/-- Every terminal outcome is a restore of the flushed state, `HistoryExhausted`, or a clean stop
(R259). -/
theorem terminal_cases (s : State) (k : TerminalKind) :
    (s.cfg.rewindEnable = false ∧ terminal s k = stop s k.cause 0) ∨
    (s.cfg.rewindEnable = true ∧ s.history = [] ∧ terminal s k = stop s .historyExhausted 0) ∨
    ∃ h c, s.cfg.rewindEnable = true ∧ s.history = h ++ [c] ∧
      terminal s k = resume { flush s with history := h } c := by
  cases hr : s.cfg.rewindEnable with
  | false => exact .inl ⟨rfl, by simp [terminal, hr]⟩
  | true =>
    refine .inr ?_
    have ht : terminal s k = restore (flush s) 0 := by simp [terminal, hr]
    rcases eq_nil_or_snoc s.history with h | ⟨h, c, hs⟩
    · exact .inl ⟨rfl, h, by rw [ht, restore_of_short (by simp [h]), stop_flush]⟩
    · refine .inr ⟨h, c, rfl, hs, ?_⟩
      rw [ht]
      exact restore_of_split (s := flush s) (dropped := []) (by simp [hs])

/-- An input request waits with the flushed state, a snapshot of it appended if checkpoints are enabled
(R232), or the capture overflows (R262). -/
theorem inputRequest_cases (s : State) (d : Fin 8) :
    (s.cfg.rewindEnable = true ∧ s.cfg.historyDepth = some s.history.length ∧
      inputRequest s d = .error ⟨.historyOverflow, 0⟩) ∨
    (s.cfg.rewindEnable = true ∧ s.cfg.historyDepth ≠ some s.history.length ∧
      inputRequest s d = .ok (note { flush s with
        history := s.history ++ [snapshot (flush s)], runState := .awaitLine d } .lineReq)) ∨
    (s.cfg.rewindEnable = false ∧
      inputRequest s d = .ok (note { flush s with runState := .awaitLine d } .lineReq)) := by
  cases hr : s.cfg.rewindEnable with
  | false => exact .inr (.inr ⟨rfl, by simp [inputRequest, hr]⟩)
  | true =>
    by_cases hd : s.cfg.historyDepth = some s.history.length
    · exact .inl ⟨rfl, hd, by simp [inputRequest, hr, capture, hd]⟩
    · exact .inr (.inl ⟨rfl, hd, by simp [inputRequest, hr, capture, hd]⟩)

/-! ### Delivery -/

/-- An ordinary line, whose codes with the newline are `c :: rest`, completes the IN (R237). -/
theorem completeIn_cons {s : State} {d : Fin 8} {L rest : List Cell} {c : Cell}
    (h : L ++ [Config.newline] = c :: rest) :
    completeIn s d L = { takeInput s d c rest with runState := .running } := by
  unfold completeIn; rw [h]

/-- A line with its newline is never empty. -/
theorem line_cons (L : List Cell) : ∃ c rest, L ++ [Config.newline] = c :: rest := by
  cases L with
  | nil => exact ⟨_, _, rfl⟩
  | cons c L => exact ⟨c, L ++ [Config.newline], rfl⟩

/-- Every delivery that has a step: a line of Words to a waiting core, which is then a command or
completes the IN (R237). -/
theorem deliver_cases {s t : State} {L : List Cell} (h : deliver s L = .next t) :
    ∃ d, s.runState = .awaitLine d ∧ isLine L = true ∧
      ((commandOf s L = some .halt ∧ t = stop (note s (.line L)) .voluntaryAbort 0) ∨
       (∃ n, commandOf s L = some (.rewind n) ∧ t = restore (note s (.line L)) n) ∨
       (commandOf s L = none ∧ t = completeIn (note s (.line L)) d L)) := by
  unfold deliver at h
  split at h
  · rename_i d hd
    refine ⟨d, hd, ?_⟩
    split at h
    · rename_i hl
      refine ⟨hl, ?_⟩
      have hc : commandOf (note s (.line L)) L = commandOf s L := rfl
      simp only [hc] at h
      cases hcmd : commandOf s L with
      | none => exact .inr (.inr ⟨rfl, by simpa [hcmd, eq_comm] using h⟩)
      | some c =>
        cases c with
        | halt => exact .inl ⟨rfl, by simpa [hcmd, handleCommand, eq_comm] using h⟩
        | rewind n =>
          exact .inr (.inl ⟨n, rfl, by simpa [hcmd, handleCommand, eq_comm] using h⟩)
    · simp at h
  · simp at h
  · simp at h

/-- A step of a waiting core is a delivery, to the state less the script's line or with the counter
moved, or the counter alone moves (R239). -/
theorem answerRequest_cases {s t : State} (h : answerRequest s = .next t) :
    (∃ q n L, deliver { s with script := q, linePolls := n } L = .next t) ∨
    t = { s with linePolls := s.linePolls + 1 } := by
  unfold answerRequest at h
  split at h
  · exact .inl ⟨_, s.linePolls, _, h⟩
  · rename_i hq
    split at h
    · exact .inl ⟨s.script, _, _, h⟩
    · exact .inr (by simpa [eq_comm] using h)

/-! ### Fetch -/

theorem fetch_congr {s t : State} (hm : t.mem = s.mem) (hp : t.pc = s.pc) : fetch t = fetch s := by
  simp [fetch, hm, hp]

/-- The `j`-th cell of a window that stays in memory. -/
theorem cellsFrom_getElem (m : Memory) (a n j : Nat) (hj : j < n) (ha : a + j < Config.memSize) :
    (cellsFrom m a n)[j]? = some (m.read (a + j)) := by
  induction n generalizing a j with
  | zero => omega
  | succ n ih =>
    have h0 : a < Config.memSize := by omega
    cases j with
    | zero => simp [cellsFrom, h0]
    | succ j =>
      simp only [cellsFrom, h0, if_true, List.getElem?_cons_succ]
      rw [ih (a + 1) j (by omega) (by omega)]
      congr 2
      omega

end Sys2Proof.Machine
end

