-- ==== Sys2Proof/Laws/Exec.lean ====
section
/-! SUPPORT. What an instruction, and what a step, can do: one inversion lemma each, from which every
invariant follows; and that operand faults come first. -/

namespace Sys2Proof.Machine

/-! ### The faults of instructions -/

/-- The stop causes an instruction itself can raise (step 4 and 5 of R256). -/
def Cause.ofInstr : Cause → Bool
  | .invalidOperand     => true
  | .invalidDestination => true
  | .stackUnderflow     => true
  | .stackOverflow      => true
  | .arithmeticError    => true
  | .addressOutOfRange  => true
  | .historyOverflow    => true
  | _                   => false

/-- A part of an instruction raises only such faults. -/
def FaultsOfInstr {α : Type} (e : Except Trap α) : Prop :=
  ∀ tr, e = .error tr → tr.cause.ofInstr = true

theorem faults_ok {α : Type} (a : α) : FaultsOfInstr (.ok a) := by intro tr h; cases h

theorem faults_error {α : Type} {tr : Trap} (h : tr.cause.ofInstr = true) :
    FaultsOfInstr (α := α) (.error tr) := by intro tr' h'; cases h'; exact h

theorem faults_bind {α β : Type} {e : Except Trap α} {f : α → Except Trap β}
    (he : FaultsOfInstr e) (hf : ∀ a, FaultsOfInstr (f a)) : FaultsOfInstr (e >>= f) := by
  cases e with
  | ok a => exact hf a
  | error tr => exact faults_error (he tr rfl)

theorem faults_dest (a : Operand) : FaultsOfInstr (dest a) := by
  cases a <;> first | exact faults_ok _ | exact faults_error rfl

theorem faults_resolve (s : State) (a : Operand) : FaultsOfInstr (resolve s a) := by
  cases a <;> first | exact faults_ok _ | exact faults_error rfl

theorem faults_pushStack (s : State) (v : Cell) : FaultsOfInstr (pushStack s v) := by
  unfold pushStack; split
  · exact faults_error rfl
  · exact faults_ok _

theorem faults_popStack (s : State) : FaultsOfInstr (popStack s) := by
  unfold popStack; split
  · exact faults_error rfl
  · exact faults_ok _

theorem faults_memAddress (v : Cell) : FaultsOfInstr (memAddress v) := by
  unfold memAddress; split
  · exact faults_ok _
  · exact faults_error rfl

theorem faults_aluMod (B C : Cell) : FaultsOfInstr (aluMod B C) := by
  unfold aluMod; split
  · exact faults_error rfl
  · exact faults_ok _

theorem faults_inputRequest (s : State) (d : Fin 8) : FaultsOfInstr (inputRequest s d) := by
  rcases inputRequest_cases s d with ⟨-, -, h⟩ | ⟨-, -, h⟩ | ⟨-, h⟩ <;> rw [h]
  · exact faults_error rfl
  · exact faults_ok _
  · exact faults_ok _

/-! ### Instructions -/

/-- Everything an instruction can do, by shape. -/
inductive ExecShape (i : Instr) (s : State) : State → Prop where
  /-- A fault of the instruction: the stop of the state it began in. -/
  | stopped (tr : Trap) (hc : tr.cause.ofInstr = true) : ExecShape i s (stop s tr.cause tr.info)
  /-- HALT, or RET on an empty stack. -/
  | terminal (k : TerminalKind) (hi : i = .halt ∨ (i = .ret ∧ s.stack = [])) :
      ExecShape i s (terminal s k)
  /-- IN with an empty queue. -/
  | request (d : Fin 8) (t : State) (hi : i = .inp (.reg d)) (hq : s.inQ = [])
      (ht : inputRequest s d = .ok t) : ExecShape i s t
  /-- IN with a queued code. -/
  | take (d : Fin 8) (c : Cell) (rest : List Cell) (hi : i = .inp (.reg d)) (hq : s.inQ = c :: rest) :
      ExecShape i s (takeInput s d c rest)
  /-- A register write: SET, RMEM and the ALU instructions. -/
  | writeReg (d : Fin 8) (v : Cell) (n : Nat) (hd : (Role.dest, Operand.reg d) ∈ i.operands)
      (ho : ∀ a, i ≠ .out a) (hn : ∀ a, i ≠ .inp a) : ExecShape i s (advance (writeReg s d v) n)
  /-- POP. -/
  | pop (d : Fin 8) (st : List Cell) (v : Cell) (hi : i = .pop (.reg d)) (hs : s.stack = st ++ [v]) :
      ExecShape i s (advance (writeReg { s with stack := st } d v) 2)
  /-- WMEM. -/
  | store (a b : Operand) (k v : Cell) (hi : i = .wmem a b) (ha : resolve s a = .ok k)
      (hb : resolve s b = .ok v) (hk : k.toNat ≤ 32767) :
      ExecShape i s (advance (writeMem s k.toNat v) 3)
  /-- The cursor alone: JMP, JT, JF, NOOP. -/
  | goto (p : Cell) (ho : ∀ a, i ≠ .out a) (hn : ∀ a, i ≠ .inp a) : ExecShape i s (jump s p)
  /-- PUSH and CALL. -/
  | push (a : Operand) (v p : Cell) (hi : i = .push a ∨ i = .call a)
      (hd : s.cfg.stackDepth ≠ some s.stack.length) :
      ExecShape i s (jump { s with stack := s.stack ++ [v] } p)
  /-- RET. -/
  | ret (st : List Cell) (v : Cell) (hi : i = .ret) (hs : s.stack = st ++ [v]) :
      ExecShape i s (jump { s with stack := st } v)
  /-- OUT. -/
  | out (a : Operand) (v : Cell) (hi : i = .out a) (ha : resolve s a = .ok v) :
      ExecShape i s (advance { s with outBuf := s.outBuf ++ [v] } 2)

theorem dest_ok {a : Operand} {d : Fin 8} (h : dest a = .ok d) : a = .reg d := by
  cases a <;> simp_all [dest]

theorem bind_ok_cases {α β : Type} {e : Except Trap α} {f : α → Except Trap β} {b : β}
    (h : (e >>= f) = .ok b) : ∃ a, e = .ok a ∧ f a = .ok b := by
  cases e with
  | ok a => exact ⟨a, rfl, h⟩
  | error tr => simp at h

/-- A `Z3` ALU instruction writes its destination or stops. -/
theorem alu3_shape {f : Cell → Cell → Except Trap Cell} {a b c : Operand} {s t : State} {i : Instr}
    (hf : ∀ B C, FaultsOfInstr (f B C)) (hi : i.operands = [(.dest, a), (.src, b), (.src, c)]) (h : alu3 f a b c s = .next t) :
    ExecShape i s t := by
  rcases settle_cases h with h | ⟨tr, he, rfl⟩
  · obtain ⟨d, hd, h⟩ := bind_ok_cases h
    obtain ⟨B, -, h⟩ := bind_ok_cases h
    obtain ⟨C, -, h⟩ := bind_ok_cases h
    obtain ⟨v, -, h⟩ := bind_ok_cases h
    cases h
    refine .writeReg d v 4 (by simp [hi, dest_ok hd]) (fun x hx => ?_) (fun x hx => ?_)
    · subst hx; simp [Instr.operands] at hi
    · subst hx; simp [Instr.operands] at hi
  · exact .stopped tr (faults_bind (faults_dest a) (fun d => faults_bind (faults_resolve s b) fun B =>
      faults_bind (faults_resolve s c) fun C => faults_bind (hf B C) fun v => faults_ok _) tr he)

/-- Say once what an instruction can do. -/
theorem exec_shape {i : Instr} {s t : State} (h : exec i s = .next t) : ExecShape i s t := by
  cases i with
  | halt => cases h; exact .terminal .halt (.inl rfl)
  | set a b =>
    rcases settle_cases h with h | ⟨tr, he, rfl⟩
    · obtain ⟨d, hd, h⟩ := bind_ok_cases h
      obtain ⟨v, -, h⟩ := bind_ok_cases h
      cases h
      exact .writeReg d v 3 (by simp [Instr.operands, dest_ok hd]) (by simp) (by simp)
    · exact .stopped tr
        (faults_bind (faults_dest a) (fun _ => faults_bind (faults_resolve s b) fun _ => faults_ok _) tr he)
  | push a =>
    rcases settle_cases h with h | ⟨tr, he, rfl⟩
    · obtain ⟨v, -, h⟩ := bind_ok_cases h
      obtain ⟨u, hu, h⟩ := bind_ok_cases h
      obtain ⟨hd, rfl⟩ := pushStack_cases hu
      cases h
      exact .push a v _ (.inl rfl) hd
    · exact .stopped tr
        (faults_bind (faults_resolve s a) (fun v => faults_bind (faults_pushStack s v) fun _ => faults_ok _) tr he)
  | pop a =>
    rcases settle_cases h with h | ⟨tr, he, rfl⟩
    · obtain ⟨d, hd, h⟩ := bind_ok_cases h
      rcases eq_nil_or_snoc s.stack with hs | ⟨st, v, hs⟩
      · simp [popStack_empty hs] at h
      · rw [popStack_concat hs] at h
        cases h
        exact .pop d st v (by rw [dest_ok hd]) hs
    · exact .stopped tr
        (faults_bind (faults_dest a) (fun _ => faults_bind (faults_popStack s) fun _ => faults_ok _) tr he)
  | eq a b c => exact alu3_shape (fun _ _ => faults_ok _) rfl h
  | gt a b c => exact alu3_shape (fun _ _ => faults_ok _) rfl h
  | jmp a =>
    rcases settle_cases h with h | ⟨tr, he, rfl⟩
    · obtain ⟨v, -, h⟩ := bind_ok_cases h
      cases h
      exact .goto v (by simp) (by simp)
    · exact .stopped tr
        (faults_bind (faults_resolve s a) (fun _ => faults_ok _) tr he)
  | jt a b =>
    rcases settle_cases h with h | ⟨tr, he, rfl⟩
    · obtain ⟨A, -, h⟩ := bind_ok_cases h
      obtain ⟨B, -, h⟩ := bind_ok_cases h
      cases hA : nonZero A <;> simp only [hA] at h <;> cases h
      · exact .goto _ (by simp) (by simp)
      · exact .goto _ (by simp) (by simp)
    · exact .stopped tr
        (faults_bind (faults_resolve s a) (fun _ => faults_bind (faults_resolve s b) fun _ => faults_ok _) tr he)
  | jf a b =>
    rcases settle_cases h with h | ⟨tr, he, rfl⟩
    · obtain ⟨A, -, h⟩ := bind_ok_cases h
      obtain ⟨B, -, h⟩ := bind_ok_cases h
      cases hA : nonZero A <;> simp only [hA] at h <;> cases h
      · exact .goto _ (by simp) (by simp)
      · exact .goto _ (by simp) (by simp)
    · exact .stopped tr
        (faults_bind (faults_resolve s a) (fun _ => faults_bind (faults_resolve s b) fun _ => faults_ok _) tr he)
  | add a b c => exact alu3_shape (fun _ _ => faults_ok _) rfl h
  | mult a b c => exact alu3_shape (fun _ _ => faults_ok _) rfl h
  | mod a b c => exact alu3_shape faults_aluMod rfl h
  | and a b c => exact alu3_shape (fun _ _ => faults_ok _) rfl h
  | or a b c => exact alu3_shape (fun _ _ => faults_ok _) rfl h
  | not a b =>
    rcases settle_cases h with h | ⟨tr, he, rfl⟩
    · obtain ⟨d, hd, h⟩ := bind_ok_cases h
      obtain ⟨B, -, h⟩ := bind_ok_cases h
      cases h
      exact .writeReg d _ 3 (by simp [Instr.operands, dest_ok hd]) (by simp) (by simp)
    · exact .stopped tr
        (faults_bind (faults_dest a) (fun _ => faults_bind (faults_resolve s b) fun _ => faults_ok _) tr he)
  | rmem a b =>
    rcases settle_cases h with h | ⟨tr, he, rfl⟩
    · obtain ⟨d, hd, h⟩ := bind_ok_cases h
      obtain ⟨addr, -, h⟩ := bind_ok_cases h
      obtain ⟨k, -, h⟩ := bind_ok_cases h
      cases h
      exact .writeReg d _ 3 (by simp [Instr.operands, dest_ok hd]) (by simp) (by simp)
    · exact .stopped tr
        (faults_bind (faults_dest a) (fun _ => faults_bind (faults_resolve s b) fun v => faults_bind (faults_memAddress v) fun _ => faults_ok _) tr he)
  | wmem a b =>
    rcases settle_cases h with h | ⟨tr, he, rfl⟩
    · obtain ⟨addr, ha, h⟩ := bind_ok_cases h
      obtain ⟨v, hb, h⟩ := bind_ok_cases h
      obtain ⟨k, hk, h⟩ := bind_ok_cases h
      cases h
      unfold memAddress at hk
      split at hk
      · rename_i hin
        cases hk
        exact .store a b addr v rfl ha hb ((inMemory_iff addr).mp hin)
      · simp at hk
    · exact .stopped tr
        (faults_bind (faults_resolve s a) (fun v => faults_bind (faults_resolve s b) fun _ => faults_bind (faults_memAddress v) fun _ => faults_ok _) tr he)
  | call a =>
    rcases settle_cases h with h | ⟨tr, he, rfl⟩
    · obtain ⟨v, -, h⟩ := bind_ok_cases h
      obtain ⟨u, hu, h⟩ := bind_ok_cases h
      obtain ⟨hd, rfl⟩ := pushStack_cases hu
      cases h
      exact .push a (s.pc + 2) v (.inr rfl) hd
    · exact .stopped tr
        (faults_bind (faults_resolve s a) (fun _ => faults_bind (faults_pushStack s _) fun _ => faults_ok _) tr he)
  | ret =>
    have h : execRet s = .next t := h
    rcases eq_nil_or_snoc s.stack with hs | ⟨st, v, hs⟩
    · have : stackEmpty s = true := by simp [stackEmpty, hs]
      rw [execRet, if_pos this] at h
      cases h
      exact .terminal .retEmpty (.inr ⟨rfl, hs⟩)
    · have : ¬ stackEmpty s = true := by simp [stackEmpty, hs]
      rw [execRet, if_neg this, popStack_concat hs] at h
      cases h
      exact .ret st v rfl hs
  | out a =>
    rcases settle_cases h with h | ⟨tr, he, rfl⟩
    · obtain ⟨v, ha, h⟩ := bind_ok_cases h
      cases h
      exact .out a v rfl ha
    · exact .stopped tr
        (faults_bind (faults_resolve s a) (fun _ => faults_ok _) tr he)
  | inp a =>
    rcases settle_cases h with h | ⟨tr, he, rfl⟩
    · obtain ⟨d, hd, h⟩ := bind_ok_cases h
      cases hq : s.inQ with
      | nil =>
        rw [hq] at h
        exact .request d t (by rw [dest_ok hd]) hq h
      | cons c rest =>
        rw [hq] at h
        cases h
        exact .take d c rest (by rw [dest_ok hd]) hq
    · refine .stopped tr (faults_bind (faults_dest a) (fun d => ?_) tr he)
      cases hq : s.inQ with
      | nil => exact faults_inputRequest s d
      | cons c rest => exact faults_ok _
  | noop => cases h; exact .goto _ (by simp) (by simp)

/-- Every instruction ends in a next state: none faults and none is refused. -/
theorem exec_isNext (i : Instr) (s : State) : ∃ t, exec i s = .next t := by
  cases i with
  | halt => exact ⟨_, rfl⟩
  | ret =>
    simp only [exec, execRet]
    split
    · exact ⟨_, rfl⟩
    · exact settle_isNext _ _
  | noop => exact ⟨_, rfl⟩
  | eq a b c => exact settle_isNext _ _
  | gt a b c => exact settle_isNext _ _
  | add a b c => exact settle_isNext _ _
  | mult a b c => exact settle_isNext _ _
  | mod a b c => exact settle_isNext _ _
  | and a b c => exact settle_isNext _ _
  | or a b c => exact settle_isNext _ _
  | set a b => exact settle_isNext _ _
  | push a => exact settle_isNext _ _
  | pop a => exact settle_isNext _ _
  | jmp a => exact settle_isNext _ _
  | jt a b => exact settle_isNext _ _
  | jf a b => exact settle_isNext _ _
  | not a b => exact settle_isNext _ _
  | rmem a b => exact settle_isNext _ _
  | wmem a b => exact settle_isNext _ _
  | call a => exact settle_isNext _ _
  | out a => exact settle_isNext _ _
  | inp a => exact settle_isNext _ _

/-! ### Operand faults -/

theorem checkOperand_dest {a : Operand} {tr : Trap} (h : checkOperand .dest a = .error tr) :
    dest a = .error tr := by
  cases a <;> simp_all [checkOperand, dest, Except.map]

theorem checkOperand_dest_ok {a : Operand} (h : checkOperand .dest a = .ok ()) :
    ∃ d, dest a = .ok d := by
  cases a <;> simp_all [checkOperand, dest, Except.map]

theorem checkOperand_src {s : State} {a : Operand} {tr : Trap}
    (h : checkOperand .src a = .error tr) : resolve s a = .error tr := by
  cases a <;> simp_all [checkOperand, resolve]

theorem checkOperand_src_ok {a : Operand} (s : State) (h : checkOperand .src a = .ok ()) :
    ∃ v, resolve s a = .ok v := by
  cases a <;> simp_all [checkOperand, resolve]

/-- The check of a list stops at its first operand that fails. -/
theorem checkOperands_cons {r : Role} {a : Operand} {rest : List (Role × Operand)} {tr : Trap}
    (h : checkOperands ((r, a) :: rest) = .error tr) :
    checkOperand r a = .error tr ∨ (checkOperand r a = .ok () ∧ checkOperands rest = .error tr) := by
  cases hc : checkOperand r a with
  | ok u => exact .inr ⟨rfl, by simpa [checkOperands, hc] using h⟩
  | error e => exact .inl (by simpa [checkOperands, hc] using h)

/-- Operands `a` (D), `b`, `c` (S) fail before the effect. -/
theorem alu3_of_invalid {f : Cell → Cell → Except Trap Cell} {a b c : Operand} {tr : Trap} (s : State)
    (h : checkOperands [(.dest, a), (.src, b), (.src, c)] = .error tr) :
    alu3 f a b c s = raise s tr := by
  rcases checkOperands_cons h with h | ⟨hd, h⟩
  · simp [alu3, checkOperand_dest h]
  obtain ⟨d, hd⟩ := checkOperand_dest_ok hd
  rcases checkOperands_cons h with h | ⟨hb, h⟩
  · simp [alu3, hd, checkOperand_src (s := s) h]
  obtain ⟨B, hb⟩ := checkOperand_src_ok s hb
  rcases checkOperands_cons h with h | ⟨hc, h⟩
  · simp [alu3, hd, hb, checkOperand_src (s := s) h]
  · simp [checkOperands] at h

/-- An instruction whose operands fail their check (R126) raises that fault, whatever else. -/
theorem exec_of_invalid {i : Instr} {tr : Trap} (s : State) (h : validate i = .error tr) :
    exec i s = raise s tr := by
  cases i with
  | halt => simp [validate, Instr.operands, checkOperands] at h
  | ret => simp [validate, Instr.operands, checkOperands] at h
  | noop => simp [validate, Instr.operands, checkOperands] at h
  | eq a b c => exact alu3_of_invalid s h
  | gt a b c => exact alu3_of_invalid s h
  | add a b c => exact alu3_of_invalid s h
  | mult a b c => exact alu3_of_invalid s h
  | mod a b c => exact alu3_of_invalid s h
  | and a b c => exact alu3_of_invalid s h
  | or a b c => exact alu3_of_invalid s h
  | pop a =>
    rcases checkOperands_cons h with h | ⟨-, h⟩
    · simp [exec, execPop, checkOperand_dest h]
    · simp [checkOperands] at h
  | inp a =>
    rcases checkOperands_cons h with h | ⟨-, h⟩
    · simp [exec, execIn, checkOperand_dest h]
    · simp [checkOperands] at h
  | push a =>
    rcases checkOperands_cons h with h | ⟨-, h⟩
    · simp [exec, execPush, checkOperand_src (s := s) h]
    · simp [checkOperands] at h
  | jmp a =>
    rcases checkOperands_cons h with h | ⟨-, h⟩
    · simp [exec, execJmp, checkOperand_src (s := s) h]
    · simp [checkOperands] at h
  | call a =>
    rcases checkOperands_cons h with h | ⟨-, h⟩
    · simp [exec, execCall, checkOperand_src (s := s) h]
    · simp [checkOperands] at h
  | out a =>
    rcases checkOperands_cons h with h | ⟨-, h⟩
    · simp [exec, execOut, checkOperand_src (s := s) h]
    · simp [checkOperands] at h
  | set a b =>
    rcases checkOperands_cons h with h | ⟨hd, h⟩
    · simp [exec, execSet, checkOperand_dest h]
    obtain ⟨d, hd⟩ := checkOperand_dest_ok hd
    rcases checkOperands_cons h with h | ⟨-, h⟩
    · simp [exec, execSet, hd, checkOperand_src (s := s) h]
    · simp [checkOperands] at h
  | not a b =>
    rcases checkOperands_cons h with h | ⟨hd, h⟩
    · simp [exec, execNot, checkOperand_dest h]
    obtain ⟨d, hd⟩ := checkOperand_dest_ok hd
    rcases checkOperands_cons h with h | ⟨-, h⟩
    · simp [exec, execNot, hd, checkOperand_src (s := s) h]
    · simp [checkOperands] at h
  | rmem a b =>
    rcases checkOperands_cons h with h | ⟨hd, h⟩
    · simp [exec, execRmem, checkOperand_dest h]
    obtain ⟨d, hd⟩ := checkOperand_dest_ok hd
    rcases checkOperands_cons h with h | ⟨-, h⟩
    · simp [exec, execRmem, hd, checkOperand_src (s := s) h]
    · simp [checkOperands] at h
  | wmem a b =>
    rcases checkOperands_cons h with h | ⟨ha, h⟩
    · simp [exec, execWmem, checkOperand_src (s := s) h]
    obtain ⟨A, ha⟩ := checkOperand_src_ok s ha
    rcases checkOperands_cons h with h | ⟨-, h⟩
    · simp [exec, execWmem, ha, checkOperand_src (s := s) h]
    · simp [checkOperands] at h
  | jt a b =>
    rcases checkOperands_cons h with h | ⟨ha, h⟩
    · simp [exec, execJt, checkOperand_src (s := s) h]
    obtain ⟨A, ha⟩ := checkOperand_src_ok s ha
    rcases checkOperands_cons h with h | ⟨-, h⟩
    · simp [exec, execJt, ha, checkOperand_src (s := s) h]
    · simp [checkOperands] at h
  | jf a b =>
    rcases checkOperands_cons h with h | ⟨ha, h⟩
    · simp [exec, execJf, checkOperand_src (s := s) h]
    obtain ⟨A, ha⟩ := checkOperand_src_ok s ha
    rcases checkOperands_cons h with h | ⟨-, h⟩
    · simp [exec, execJf, ha, checkOperand_src (s := s) h]
    · simp [checkOperands] at h

/-! ### Steps -/

/-- Everything a step can do. -/
inductive StepShape (s : State) : State → Prop where
  /-- A running core cannot fetch an instruction: the run stops (R121, R122). -/
  | fetchStop (tr : Trap) (hr : s.runState = .running) (hf : fetch s = .error tr) :
      StepShape s (stop s tr.cause tr.info)
  /-- A running core executes one instruction. -/
  | exec (i : Instr) (t : State) (hr : s.runState = .running) (hf : fetch s = .ok i)
      (hx : ExecShape i s t) : StepShape s t
  /-- A waiting core is not answered yet. -/
  | wait (d : Fin 8) (hr : s.runState = .awaitLine d) :
      StepShape s { s with linePolls := s.linePolls + 1 }
  /-- A waiting core gets the command `halt`. -/
  | halt (d : Fin 8) (q : List (List Cell)) (n : Nat) (L : List Cell)
      (hr : s.runState = .awaitLine d) (hc : s.cfg.rewindEnable = true) :
      StepShape s (stop (note { s with script := q, linePolls := n } (.line L)) .voluntaryAbort 0)
  /-- A waiting core gets a command `rewind k`. -/
  | rewind (d : Fin 8) (q : List (List Cell)) (n : Nat) (L : List Cell) (k : Nat)
      (hr : s.runState = .awaitLine d) (hc : s.cfg.rewindEnable = true) :
      StepShape s (restore (note { s with script := q, linePolls := n } (.line L)) k)
  /-- A waiting core gets an ordinary line, whose first code goes to its register. -/
  | line (d : Fin 8) (q : List (List Cell)) (n : Nat) (L : List Cell) (c : Cell) (rest : List Cell)
      (hr : s.runState = .awaitLine d) (hl : isLine L = true)
      (hL : L ++ [Config.newline] = c :: rest) :
      StepShape s { takeInput (note { s with script := q, linePolls := n } (.line L)) d c rest with
        runState := .running }

theorem commandOf_some {s : State} {L : List Cell} {c : Command} (h : commandOf s L = some c) :
    s.cfg.rewindEnable = true ∧ parseCommand L = some c := by
  unfold commandOf at h
  split at h
  · exact ⟨‹_›, h⟩
  · simp at h

/-- Say once what a step can do. -/
theorem step_shape {s t : State} (h : step s = .next t) : StepShape s t := by
  unfold step at h
  split at h
  · rename_i hr
    split at h
    · exact .exec _ t hr ‹_› (exec_shape h)
    · simp only [raise, Host.Outcome.next.injEq] at h
      subst h
      exact .fetchStop _ hr ‹_›
  · rename_i d hr
    rcases answerRequest_cases h with ⟨q, n, L, h⟩ | rfl
    · obtain ⟨d', hd', hl, h⟩ := deliver_cases h
      simp only at hd'
      have hdd : d' = d := by rw [hr] at hd'; cases hd'; rfl
      subst hdd
      rcases h with ⟨hc, rfl⟩ | ⟨k, hc, rfl⟩ | ⟨-, rfl⟩
      · exact .halt _ q n L hr (commandOf_some hc).1
      · exact .rewind _ q n L k hr (commandOf_some hc).1
      · obtain ⟨c, rest, hL⟩ := line_cons L
        rw [completeIn_cons hL]
        exact .line _ q n L c rest hr hl hL
    · exact .wait d hr
  · simp at h

end Sys2Proof.Machine
end

