-- ==== Sys2Proof/Laws/Frames.lean ====
section
/-! SUPPORT. What each shared operation leaves unchanged, in the terms of Safety.lean. -/

namespace Sys2Proof.Safety

open Sys2Proof.Machine

/-- A frame grows with its list. -/
theorem ChangesOnly.mono {ps qs : List Part} {s t : State} (h : ChangesOnly ps s t) (hs : ps ⊆ qs) :
    ChangesOnly qs s t := fun p hp => h p fun hm => hp (hs hm)

/-- Frames compose. -/
theorem ChangesOnly.trans {ps : List Part} {s t u : State} (h : ChangesOnly ps s t)
    (h' : ChangesOnly ps t u) : ChangesOnly ps s u := by
  intro p hp
  have h1 := h p hp
  have h2 := h' p hp
  cases p <;> simp_all [Part.same]

theorem changesOnly_jump (s : State) (v : Cell) : ChangesOnly [.pc] s (jump s v) := by
  intro p hp
  cases p <;> first | rfl | exact (hp (by simp)).elim

theorem changesOnly_advance (s : State) (n : Nat) : ChangesOnly [.pc] s (advance s n) :=
  changesOnly_jump s _

theorem changesOnly_writeReg (s : State) (d : Fin 8) (v : Cell) (n : Nat) :
    ChangesOnly [.pc, .reg d] s (advance (writeReg s d v) n) := by
  intro p hp
  cases p with
  | reg r =>
    have hr : r ≠ d := by rintro rfl; simp at hp
    exact readReg_writeReg_other s v hr
  | _ => first | rfl | exact (hp (by simp)).elim

theorem changesOnly_writeMem (s : State) (k : Nat) (v : Cell) (n : Nat) :
    ChangesOnly [.pc, .cell k] s (advance (writeMem s k v) n) := by
  intro p hp
  cases p with
  | cell a =>
    have ha : a ≠ k := by rintro rfl; simp at hp
    exact readMem_writeMem_other s v ha
  | _ => first | rfl | exact (hp (by simp)).elim

theorem changesOnly_takeInput (s : State) (d : Fin 8) (c : Cell) (rest : List Cell) :
    ChangesOnly [.pc, .reg d, .inQ] s (takeInput s d c rest) := by
  intro p hp
  cases p with
  | reg r =>
    have hr : r ≠ d := by rintro rfl; simp at hp
    exact readReg_writeReg_other s c hr
  | _ => first | rfl | exact (hp (by simp)).elim

theorem changesOnly_flush (s : State) : ChangesOnly [.outBuf, .ports] s (flush s) := by
  intro p hp
  cases p with
  | cell a => exact readMem_congr (flush_mem s) a
  | reg r => exact readReg_congr (flush_regs s) r
  | _ => first | (simp at hp; done) | simp [Part.same]

/-- The stop leaves what R254 says. -/
theorem stop_stoppedWith (s : State) (c : Cause) (n : Nat) :
    StoppedWith s (stop s c n) c (BitVec.ofNat 16 n) where
  runState := rfl
  faultPc := rfl
  faultWord := rfl
  emptied := stop_outBuf s c n
  emitted := emitted_stop s c n
  rest := by
    intro p hp
    cases p with
    | cell a => exact readMem_congr (stop_mem s c n) a
    | reg r => exact readReg_congr (stop_regs s c n) r
    | _ => first | (simp at hp; done) | simp [Part.same]

/-- The restore of a flushed state leaves what R265 says. -/
theorem resume_flush_restoredTo (s : State) (h : List Snapshot) (c : Snapshot) :
    RestoredTo s (resume { flush s with history := h } c) h c s.outBuf := by
  constructor <;> first | rfl | simp
  exact (emitted_of_ports (s := flush s) rfl).trans (emitted_flush s)

/-- A terminal outcome leaves what R259 says. -/
theorem terminal_outcome (s : State) (k : TerminalKind) :
    TerminalOutcome s (terminal s k) k.cause := by
  rcases terminal_cases s k with ⟨hr, ht⟩ | ⟨hr, hh, ht⟩ | ⟨h, c, hr, hh, ht⟩ <;> rw [ht]
  · exact ⟨by simp [hr], by simp [hr], fun _ => stop_stoppedWith s _ 0⟩
  · exact ⟨by simp [hh], fun _ _ => stop_stoppedWith s _ 0, by simp [hr]⟩
  · refine ⟨fun _ h' c' hh' => ?_, by simp [hh], by simp [hr]⟩
    obtain ⟨rfl, hc⟩ := List.append_inj' (hh.symm.trans hh') rfl
    cases hc
    exact resume_flush_restoredTo s h c

end Sys2Proof.Safety
end

