-- ==== Sys2Proof/Laws/PerInstr.lean ====
section
/-! SUPPORT. The statements made instruction by instruction: the length of an encoding (30_encoding.md
R91, R92). -/

namespace Sys2Proof.Laws.EncodeLength

/-- The words of an instruction are one more than its arity, 1 to 4 of them, and the first is its opcode
(R90, R91, R92). -/
def Statement (i : Instr) : Prop :=
  (encode i).length = i.arity + 1 ∧ (encode i).length ≤ 4 ∧ (encode i).head? = some i.opcode ∧
    i.opcode.toNat ≤ 21

/-- The first and third parts hold by computation for every instruction; the bounds are left. -/
theorem of_bounds {i : Instr} (n : Nat.ble i.arity 3 = true) (op : Nat.ble i.opcode.toNat 21 = true) :
    Statement i := by
  have hl : (encode i).length = i.arity + 1 := by simp [encode, Instr.arity]
  have := Nat.le_of_ble_eq_true n
  exact ⟨hl, by omega, rfl, Nat.le_of_ble_eq_true op⟩

theorem halt : Statement .halt := of_bounds rfl rfl
theorem set (a b : Operand) : Statement (.set a b) := of_bounds rfl rfl
theorem push (a : Operand) : Statement (.push a) := of_bounds rfl rfl
theorem pop (a : Operand) : Statement (.pop a) := of_bounds rfl rfl
theorem eq (a b c : Operand) : Statement (.eq a b c) := of_bounds rfl rfl
theorem gt (a b c : Operand) : Statement (.gt a b c) := of_bounds rfl rfl
theorem jmp (a : Operand) : Statement (.jmp a) := of_bounds rfl rfl
theorem jt (a b : Operand) : Statement (.jt a b) := of_bounds rfl rfl
theorem jf (a b : Operand) : Statement (.jf a b) := of_bounds rfl rfl
theorem add (a b c : Operand) : Statement (.add a b c) := of_bounds rfl rfl
theorem mult (a b c : Operand) : Statement (.mult a b c) := of_bounds rfl rfl
theorem mod (a b c : Operand) : Statement (.mod a b c) := of_bounds rfl rfl
theorem and (a b c : Operand) : Statement (.and a b c) := of_bounds rfl rfl
theorem or (a b c : Operand) : Statement (.or a b c) := of_bounds rfl rfl
theorem not (a b : Operand) : Statement (.not a b) := of_bounds rfl rfl
theorem rmem (a b : Operand) : Statement (.rmem a b) := of_bounds rfl rfl
theorem wmem (a b : Operand) : Statement (.wmem a b) := of_bounds rfl rfl
theorem call (a : Operand) : Statement (.call a) := of_bounds rfl rfl
theorem ret : Statement .ret := of_bounds rfl rfl
theorem out (a : Operand) : Statement (.out a) := of_bounds rfl rfl
theorem inp (a : Operand) : Statement (.inp a) := of_bounds rfl rfl
theorem noop : Statement .noop := of_bounds rfl rfl

end Sys2Proof.Laws.EncodeLength
end

