-- ==== Sys2Proof/Tests/Slice0.lean ====
section
/-! SUPPORT. The model's own tests. The expected values of the vectors V-* are those of
spec/95_test_vectors.md; the words of the decoder's tests are written out from the tables of
30_encoding.md R93 and R95. Then the ill-formed terms, and for each statement of
Certificates/Slice0/Obligations.lean that has hypotheses a state and operands that meet them. -/

namespace Sys2Proof.Tests

open Sys2Proof.Machine Sys2Proof.Safety Sys2Proof.Claims

/-! ### Helpers -/

/-- Reset with words from address `a` up, and the cursor at `a`. -/
def code (a : Nat) (ws : List Cell) : State :=
  { State.reset with pc := BitVec.ofNat 16 a, mem := storeCells [] a ws }

/-- The non-interactive configuration. -/
def nr (s : State) : State := { s with cfg := { s.cfg with rewindEnable := false } }

/-- A bounded call stack and history. -/
def bounded (stack history : Nat) (s : State) : State :=
  { s with cfg := { s.cfg with stackDepth := some stack, historyDepth := some history } }

/-- A state with a call stack. -/
def stacked (st : List Cell) (s : State) : State := { s with stack := st }

/-- What a view of the next state shows. -/
def after {α : Type} (r : Result) (view : State → α) : Option α :=
  match r with
  | .next t    => some (view t)
  | .fault _   => none
  | .refused _ => none

/-- The stop, as STATUS tells it: run state, `FAULT_PC` and `FAULT_WORD`. -/
def told (t : State) : RunState × Cell × Cell := (t.runState, t.faultPc, t.faultWord)

/-! ### The decoder, one word sequence per constructor (R93, R95) -/

theorem test_decode_halt : decode [0x0000] = .ok (.halt, []) := by rfl
theorem test_decode_set :
    decode [0x0001, 0x8001, 0x7FFF] = .ok (.set (.reg 1) (.lit 32767), []) := by rfl
theorem test_decode_push : decode [0x0002, 0x8007] = .ok (.push (.reg 7), []) := by rfl
theorem test_decode_pop : decode [0x0003, 0x8002] = .ok (.pop (.reg 2), []) := by rfl
theorem test_decode_eq :
    decode [0x0004, 0x8000, 0x8001, 0x0005] = .ok (.eq (.reg 0) (.reg 1) (.lit 5), []) := by rfl
theorem test_decode_gt :
    decode [0x0005, 0x8003, 0x0000, 0x8004] = .ok (.gt (.reg 3) (.lit 0) (.reg 4), []) := by rfl
theorem test_decode_jmp : decode [0x0006, 0x0100] = .ok (.jmp (.lit 256), []) := by rfl
theorem test_decode_jt :
    decode [0x0007, 0x8000, 0x0064] = .ok (.jt (.reg 0) (.lit 100), []) := by rfl
theorem test_decode_jf :
    decode [0x0008, 0x0001, 0x8006] = .ok (.jf (.lit 1) (.reg 6), []) := by rfl
theorem test_decode_add :
    decode [0x0009, 0x8000, 0x8000, 0x0001] = .ok (.add (.reg 0) (.reg 0) (.lit 1), []) := by rfl
theorem test_decode_mult :
    decode [0x000A, 0x8005, 0x0002, 0x0003] = .ok (.mult (.reg 5) (.lit 2) (.lit 3), []) := by rfl
theorem test_decode_mod :
    decode [0x000B, 0x8001, 0x8002, 0x8003] = .ok (.mod (.reg 1) (.reg 2) (.reg 3), []) := by rfl
theorem test_decode_and :
    decode [0x000C, 0x8000, 0x000C, 0x000A] = .ok (.and (.reg 0) (.lit 12) (.lit 10), []) := by rfl
theorem test_decode_or :
    decode [0x000D, 0x8007, 0x0001, 0x8000] = .ok (.or (.reg 7) (.lit 1) (.reg 0), []) := by rfl
theorem test_decode_not :
    decode [0x000E, 0x8004, 0x5555] = .ok (.not (.reg 4) (.lit 21845), []) := by rfl
theorem test_decode_rmem :
    decode [0x000F, 0x8001, 0x0064] = .ok (.rmem (.reg 1) (.lit 100), []) := by rfl
theorem test_decode_wmem :
    decode [0x0010, 0x0064, 0x002A] = .ok (.wmem (.lit 100) (.lit 42), []) := by rfl
theorem test_decode_call : decode [0x0011, 0x0007] = .ok (.call (.lit 7), []) := by rfl
theorem test_decode_ret : decode [0x0012, 0x8000] = .ok (.ret, [0x8000]) := by rfl
theorem test_decode_out : decode [0x0013, 0x0041] = .ok (.out (.lit 65), []) := by rfl
theorem test_decode_in : decode [0x0014, 0x8000] = .ok (.inp (.reg 0), []) := by rfl
theorem test_decode_noop : decode [0x0015, 0x0000] = .ok (.noop, [0x0000]) := by rfl

/-- An operand word above 32775 and a literal destination decode to themselves: they are no other
instruction's words (R93, R97). -/
theorem test_decode_illegal_operands :
    decode [0x0001, 0x0005, 0x8008] = .ok (.set (.lit 5) (.invalid 0x8008), []) := by rfl
/-- An opcode word is not resolved (R96), and above 21 there is none (R97). -/
theorem test_decode_unknown :
    decode [0x0016] = .error (.unknownOpcode 0x0016) ∧
    decode [0x8000] = .error (.unknownOpcode 0x8000) ∧
    decode [0xFFFF] = .error (.unknownOpcode 0xFFFF) := ⟨rfl, rfl, rfl⟩
/-- Too few operand words (R97). -/
theorem test_decode_cut : decode [0x0009, 0x8000, 0x8000] = .error .operandsCut ∧
    decode [] = .error .noOpcode := ⟨rfl, rfl⟩
/-- The opcode-table word of ADD R0 R0 1, its later words above the first (48 bits and more). -/
theorem test_table_word :
    decodeTableWord 64 0x0001800080000009 = some (.add (.reg 0) (.reg 0) (.lit 1)) ∧
    decodeTableWord 16 9 = some (.add (.lit 0) (.lit 0) (.lit 0)) := ⟨rfl, rfl⟩

/-! ### Ill-formed terms are refused (R97) -/

theorem test_wellFormed_literal_destination :
    (Instr.set (.lit 5) (.lit 1)).wellFormed = false ∧ (Instr.pop (.lit 7)).wellFormed = false ∧
    (Instr.inp (.lit 5)).wellFormed = false := by decide
theorem test_wellFormed_invalid_destination :
    (Instr.not (.invalid 32776) (.lit 1)).wellFormed = false := by decide
theorem test_wellFormed_invalid_source :
    (Instr.jt (.lit 0) (.invalid 40000)).wellFormed = false ∧
    (Instr.add (.reg 0) (.lit 1) (.invalid 65535)).wellFormed = false := by decide
theorem test_canonical_refuses :
    (Instr.push (.invalid 32775)).canonical = false ∧ (Instr.push (.invalid 7)).canonical = false ∧
    (Instr.push (.invalid 32776)).canonical = true := by decide
theorem test_wellFormed_accepts :
    (Instr.wmem (.lit 1) (.reg 7)).wellFormed = true ∧ Instr.halt.wellFormed = true := by decide
/-- A memory with an entry 0, an entry out of order or past the last cell is not canonical. -/
theorem test_memory_wf_refuses :
    ¬ Memory.wf [(4, 0)] ∧ ¬ Memory.wf [(4, 1), (4, 1)] ∧ ¬ Memory.wf [(32768, 1)] ∧
    Memory.wf [(4, 1), (32767, 1)] := by decide

/-! ### Fetch, decode and operand checks (V-D*) -/

/-- V-D1 and V-D2. -/
theorem test_unknown_opcode :
    after (step (code 0 [22])) told = some (.stopped .decodeError, 0, 22) ∧
    after (step (code 0 [32768])) told = some (.stopped .decodeError, 0, 32768) := by decide
/-- V-D4 and V-D5. -/
theorem test_operand_fetch :
    after (step (code 32766 [1, 32768])) told = some (.stopped .operandFetchOutOfRange, 32766, 0) ∧
    after (step (code 32767 [20])) (fun t => (t.runState, t.history)) =
      some (.stopped .operandFetchOutOfRange, []) := by decide
/-- V-D11 and V-D12. -/
theorem test_operand_order :
    after (step (code 0 [9, 5, 40000, 1])) told = some (.stopped .invalidDestination, 0, 5) ∧
    after (step (code 0 [9, 32768, 40000, 50000])) told =
      some (.stopped .invalidOperand, 0, 40000) := by decide
/-- V-D16. -/
theorem test_stop_flushes :
    after (step { code 0 [22] with outBuf := [72] }) (fun t => (t.emitted, t.outBuf)) =
      some ([72], []) := by decide
/-- V-D13: the second step, at `pc = 32768`. -/
theorem test_cursor_past_memory :
    after (step (nr { State.reset with pc := 32768 })) told = some (.stopped .exited, 32768, 0) := by
  decide

/-! ### Control transfer (V-C*) -/

/-- V-C15. -/
theorem test_halt_stops : after (step (nr (code 4 [0]))) (fun t => (told t, t.pc)) =
    some ((.stopped .halted, 4, 0), 4) := by decide
/-- V-C14. -/
theorem test_halt_without_history :
    after (step (code 0 [0])) told = some (.stopped .historyExhausted, 0, 0) := by decide
/-- V-C1 and V-C2. -/
theorem test_jmp : after (step (code 0 [6, 10])) State.pc = some 10 ∧
    after (step (writeReg (code 0 [6, 32768]) 0 40000)) State.pc = some 40000 := by decide
/-- V-C3 and V-C4. -/
theorem test_jt : after (step (writeReg (code 0 [7, 32768, 100]) 0 5)) State.pc = some 100 ∧
    after (step (code 0 [7, 32768, 100])) State.pc = some 3 := by decide
/-- V-D10. -/
theorem test_jt_checks_target :
    after (step (code 0 [7, 0, 40000])) told = some (.stopped .invalidOperand, 0, 40000) := by decide
/-- V-C5 and V-C6. -/
theorem test_jf : after (step (writeReg (code 0 [8, 32768, 100]) 0 32768)) State.pc = some 3 ∧
    after (step (code 0 [8, 0, 100])) State.pc = some 100 := by decide
/-- V-C8. -/
theorem test_call : after (step (writeReg (code 32766 [17, 32768]) 0 3)) (fun t => (t.stack, t.pc)) =
    some ([32768], 3) := by decide
/-- V-C17. -/
theorem test_call_overflow :
    after (step (bounded 1 0 (stacked [9] (code 2 [17, 7])))) (fun t => (told t, t.stack, t.pc)) =
      some ((.stopped .stackOverflow, 2, 0), [9], 2) := by decide
/-- V-C9. -/
theorem test_ret : after (step (stacked [4] (code 0 [18]))) (fun t => (t.pc, t.stack)) =
    some (4, []) := by decide
/-- V-C12 and V-C13. -/
theorem test_ret_empty :
    after (step (nr (code 0 [18]))) told = some (.stopped .returnedEmpty, 0, 0) ∧
    after (step (code 0 [18])) told = some (.stopped .historyExhausted, 0, 0) := by decide
/-- V-C16, and V-D13's first step. -/
theorem test_noop : after (step (code 9 [21])) State.pc = some 10 ∧
    after (step (nr (code 32767 [21]))) State.pc = some 32768 := by decide

/-! ### Moves, stack and memory (V-M*) -/

/-- V-D9. -/
theorem test_set_keeps_bit_15 :
    after (step (writeReg (code 0 [1, 32768, 32775]) 7 40000)) (fun t => (readReg t 0, t.pc)) =
      some (40000, 3) := by decide
/-- V-D6. -/
theorem test_set_destination :
    after (step (code 0 [1, 5, 1])) told = some (.stopped .invalidDestination, 0, 5) := by decide
/-- V-M3. -/
theorem test_push : after (step (writeReg (code 0 [2, 32768]) 0 40000)) (fun t => (t.stack, t.pc)) =
    some ([40000], 2) := by decide
/-- V-M7. -/
theorem test_push_overflow :
    after (step (bounded 1 0 (stacked [1] (code 0 [2, 5])))) (fun t => (told t, t.stack)) =
      some ((.stopped .stackOverflow, 0, 0), [1]) := by decide
/-- V-M4, with an entry under the top. -/
theorem test_pop : after (step (stacked [3, 7] (code 0 [3, 32768])))
    (fun t => (readReg t 0, t.stack, t.pc)) = some (7, [3], 2) := by decide
/-- V-M5 and V-M6. -/
theorem test_pop_empty :
    after (step (code 0 [3, 32768])) told = some (.stopped .stackUnderflow, 0, 0) ∧
    after (step (code 0 [3, 7])) told = some (.stopped .invalidDestination, 0, 7) := by decide
/-- V-M9. -/
theorem test_rmem : after (step (writeMem (code 0 [15, 32768, 100]) 100 32768))
    (fun t => (readReg t 0, t.pc)) = some (32768, 3) := by decide
/-- V-M10. -/
theorem test_rmem_range :
    after (step (writeReg (code 0 [15, 32768, 32769]) 1 40000)) told =
      some (.stopped .addressOutOfRange, 0, 40000) := by decide
/-- V-M14: over its own address operand. -/
theorem test_wmem : after (step (code 0 [16, 1, 7])) (fun t => (readMem t 1, readMem t 7, t.pc)) =
    some (7, 0, 3) := by decide
/-- V-M13. -/
theorem test_wmem_range :
    after (step (writeReg (code 0 [16, 32769, 5]) 1 32768)) told =
      some (.stopped .addressOutOfRange, 0, 32768) := by decide

/-! ### ALU (V-A*) -/

/-- V-A3 and V-A4. -/
theorem test_add :
    after (step (writeReg (code 0 [9, 32768, 32769, 1]) 1 65535)) (readReg · 0) = some 0 ∧
    after (step (writeReg (code 0 [9, 32768, 32768, 32768]) 0 20000)) (readReg · 0) = some 7232 := by
  decide
/-- V-A5 and V-A9. -/
theorem test_mult :
    after (step (code 0 [10, 32768, 32767, 32767])) (readReg · 0) = some 1 ∧
    after (step (writeReg (code 0 [10, 32768, 32769, 32769]) 1 65535)) (readReg · 0) = some 1 := by
  decide
/-- V-A13. -/
theorem test_mod :
    after (step (writeReg (writeReg (code 0 [11, 32768, 32769, 32770]) 1 40000) 2 50000))
      (readReg · 0) = some 7232 := by decide
/-- V-A14. -/
theorem test_mod_zero :
    after (step (code 0 [11, 32768, 10, 0])) (fun t => (told t, readReg t 0)) =
      some ((.stopped .arithmeticError, 0, 0), 0) := by decide
/-- V-A15 and V-A16. -/
theorem test_and : after (step (code 0 [12, 32768, 12, 10])) (readReg · 0) = some 8 ∧
    after (step (writeReg (code 0 [12, 32768, 32769, 32769]) 1 32768)) (readReg · 0) = some 0 := by
  decide
/-- V-A17 and V-A18. -/
theorem test_or : after (step (code 0 [13, 32768, 12, 10])) (readReg · 0) = some 14 ∧
    after (step (writeReg (code 0 [13, 32768, 32769, 1]) 1 32768)) (readReg · 0) = some 1 := by
  decide
/-- V-A21 and V-A23. -/
theorem test_not :
    after (step (code 0 [14, 32768, 21845])) (fun t => (readReg t 0, t.pc)) = some (10922, 3) ∧
    after (step (writeReg (code 0 [14, 32768, 32769]) 1 65535)) (readReg · 0) = some 0 := by decide
/-- V-A25 and V-A26. -/
theorem test_eq :
    after (step (writeReg (code 0 [4, 32768, 32769, 0]) 1 32768)) (readReg · 0) = some 0 ∧
    after (step (writeReg (code 0 [4, 32768, 32768, 32768]) 0 9)) (fun t => (readReg t 0, t.pc)) =
      some (1, 4) := by decide
/-- V-A28 and V-A29. -/
theorem test_gt : after (step (code 0 [5, 32768, 3, 3])) (readReg · 0) = some 0 ∧
    after (step (writeReg (code 0 [5, 32768, 32769, 32767]) 1 40000)) (readReg · 0) = some 1 := by
  decide

/-! ### Character I/O and operator commands (V-I*, V-K*) -/

/-- V-I2. -/
theorem test_out : after (step (writeReg (code 0 [19, 32768]) 0 40000))
    (fun t => (t.outBuf, t.emitted, t.pc)) = some ([40000], [], 2) := by decide
/-- V-I3. -/
theorem test_out_operand :
    after (step (code 0 [19, 40000])) told = some (.stopped .invalidOperand, 0, 40000) := by decide
/-- V-I4. -/
theorem test_in : after (step { code 0 [20, 32768] with inQ := [98, 10] })
    (fun t => (readReg t 0, t.inQ, t.pc, t.history, t.ports)) = some (98, [10], 2, [], []) := by
  decide
/-- V-I8: flushed before the capture. -/
theorem test_in_requests : after (step { code 0 [20, 32768] with outBuf := [104, 105] })
    (fun t => (t.emitted, t.runState, t.history.map fun c => (c.pc, c.outBuf))) =
      some ([104, 105], .awaitLine 0, [(0, [])]) := by decide

/-- `IN R0` waiting in the checkpoint-capable configuration, its snapshot captured. -/
def waiting : State :=
  { code 0 [20, 32768] with
    runState := .awaitLine 0, history := [snapshot (code 0 [20, 32768])], ports := [.lineReq] }

/-- V-I7: the empty line. -/
theorem test_deliver_empty : after (deliver waiting []) (fun t => (readReg t 0, t.inQ, t.pc)) =
    some (10, [], 2) := by decide
/-- V-I11. -/
theorem test_deliver_halt_plain : after (deliver (nr waiting) [104, 97, 108, 116])
    (fun t => (readReg t 0, t.inQ)) = some (104, [97, 108, 116, 10]) := by decide
/-- P4 step 6: the command `halt`. -/
theorem test_command_halt : after (deliver waiting [104, 97, 108, 116]) told =
    some (.stopped .voluntaryAbort, 0, 0) := by decide
/-- V-K6: `rewind 01` at depth 1. -/
theorem test_command_rewind_deep :
    after (deliver waiting [114, 101, 119, 105, 110, 100, 32, 48, 49])
      (fun t => (told t, t.history.length)) = some ((.stopped .historyExhausted, 0, 1), 1) := by decide
/-- V-K7: `rewind 0` at depth 1. -/
theorem test_command_rewind : after (deliver waiting [114, 101, 119, 105, 110, 100, 32, 48])
    (fun t => (t.runState, t.pc, t.history, t.emitted)) = some (.running, 0, [], []) := by decide
/-- V-K5: `Halt`, `rewind` and `rewind  1` are no commands. -/
theorem test_not_commands : parseCommand [72, 97, 108, 116] = none ∧
    parseCommand [114, 101, 119, 105, 110, 100] = none ∧
    parseCommand [114, 101, 119, 105, 110, 100, 32, 32, 49] = none := by decide

/-! ### Load and reset -/

/-- The image of P7: its word 5 is 40000, all 16 bits. -/
theorem test_load : (load [0x0F, 0, 0, 0x80, 5, 0, 6, 0, 0, 0x80, 0x40, 0x9C]) =
    .ok [(0, 15), (1, 32768), (2, 5), (3, 6), (4, 32768), (5, 40000)] := by rfl
/-- An odd image (R291). -/
theorem test_load_odd : load [0x15] = .error .oddLength := by rfl
/-- The host's question: the placed instruction is the one that runs. -/
theorem test_withFetchWord :
    after (step (State.reset.withFetchWord 64 0x0001800080000009)) (fun t => (readReg t 0, t.pc)) =
      some (1, 4) := by decide

/-! ### Witnesses: states and operands that meet the hypotheses of the statements -/

theorem test_witness_DecodeOfEncode :
    (Instr.add (.reg 7) (.lit 32767) (.reg 0)).wellFormed = true := by decide
theorem test_witness_EncodeOfDecode :
    decode [9, 32775, 32776, 32767, 0] = .ok (.add (.reg 7) (.invalid 32776) (.lit 32767), [0]) := by
  rfl
/-- Each class at both ends of its range; the three ranges share no word. -/
theorem test_witness_OperandClasses :
    Operand.ofCell 0 = .lit 0 ∧ Operand.ofCell 32767 = .lit 32767 ∧
    Operand.ofCell 32768 = .reg 0 ∧ Operand.ofCell 32775 = .reg 7 ∧
    Operand.ofCell 32776 = .invalid 32776 ∧ Operand.ofCell 65535 = .invalid 65535 := by decide
/-- At the last cell, where the window holds one word. -/
theorem test_witness_StepRunsDecoded :
    (code 32767 [21]).runState = .running ∧ (code 32767 [21]).pc.toNat ≤ 32767 ∧
    decode (cellsFrom (code 32767 [21]).mem (code 32767 [21]).pc.toNat 4) = .ok (.noop, []) :=
  ⟨rfl, by decide, rfl⟩
theorem test_witness_FetchFaults_exited :
    (jump State.reset 32768).runState = .running ∧ 32767 < (jump State.reset 32768).pc.toNat := by
  decide
theorem test_witness_FetchFaults_opcode :
    (code 32767 [22]).runState = .running ∧ (code 32767 [22]).pc.toNat ≤ 32767 ∧
    21 < (readMem (code 32767 [22]) (code 32767 [22]).pc.toNat).toNat := by decide
theorem test_witness_FetchFaults_operands :
    (code 32766 [1]).runState = .running ∧ (code 32766 [1]).pc.toNat ≤ 32767 ∧
    (Instr.set (.reg 0) (.lit 0)).opcode = readMem (code 32766 [1]) (code 32766 [1]).pc.toNat ∧
    32767 < (code 32766 [1]).pc.toNat + (Instr.set (.reg 0) (.lit 0)).arity := by decide
theorem test_witness_FetchFaults_last :
    (code 32767 [18]).runState = .running ∧ (code 32767 [18]).pc.toNat = 32767 ∧
    Instr.ret.opcode = readMem (code 32767 [18]) 32767 ∧ Instr.ret.arity = 0 := by decide
/-- The last place where a `Z2` instruction has all its words. -/
theorem test_witness_FetchReadsOperandWords :
    (code 32765 [1, 32768, 7]).pc.toNat + (Instr.set (.reg 0) (.lit 7)).arity ≤ 32767 ∧
    (Instr.set (.reg 0) (.lit 7)).canonical = true ∧
    (Instr.set (.reg 0) (.lit 7)).opcode =
      readMem (code 32765 [1, 32768, 7]) (code 32765 [1, 32768, 7]).pc.toNat ∧
    ∀ k (h : k < (Instr.set (.reg 0) (.lit 7)).operands.length),
      readMem (code 32765 [1, 32768, 7]) ((code 32765 [1, 32768, 7]).pc.toNat + 1 + k) =
        ((Instr.set (.reg 0) (.lit 7)).operands[k]'h).2.toCell := by decide
/-- The clauses at 32767, 32768, 32775 and 32776; a literal is a value as a source and a fault as a
destination. -/
theorem test_witness_OperandRoles :
    resolve State.reset (.ofCell 32767) = .ok 32767 ∧
    dest (.ofCell 32767) = .error ⟨.invalidDestination, 32767⟩ ∧
    dest (.ofCell 32768) = .ok 0 ∧ dest (.ofCell 32775) = .ok 7 ∧
    resolve State.reset (.ofCell 32776) = .error ⟨.invalidOperand, 32776⟩ ∧
    dest (.ofCell 32776) = .error ⟨.invalidDestination, 32776⟩ := ⟨rfl, rfl, rfl, rfl, rfl, rfl⟩
/-- `OperandFaults` (OperandsCheckedInOrder and the instructions' statements): `b` fails after a good `a`, before a bad `c`; and a destination that fails. -/
theorem test_witness_OperandFaults :
    (Instr.add (.reg 0) (.invalid 40000) (.invalid 50000)).operands =
      [(.dest, .reg 0)] ++ (.src, .invalid 40000) :: [(.src, .invalid 50000)] ∧
    (∀ p ∈ [(Role.dest, Operand.reg 0)], p.2.fits p.1 = true) ∧
    (Operand.invalid 40000).fits .src = false ∧
    (Instr.inp (.lit 5)).operands = [] ++ (.dest, .lit 5) :: [] ∧
    (Operand.lit 5).fits .dest = false := by decide
/-- The source operands in the hypotheses of SetCopiesValue, PushAppendsValue, RmemCopiesCell,
WmemStoresValue, ComparesWriteTruth, AddMultReduce, ModRemainder, BitwiseMasked, JumpsSetCursor,
CallPushesReturn and OutAppendsCode: a literal at the top of its range, and a register above it. -/
theorem test_witness_resolve :
    resolve State.reset (.lit 32767) = .ok 32767 ∧
    resolve (writeReg State.reset 7 65535) (.reg 7) = .ok 65535 := ⟨rfl, rfl⟩
/-- PushAppendsValue and CallPushesReturn: an unbounded stack, the last free place, and a full stack. -/
theorem test_witness_push :
    State.reset.cfg.stackDepth ≠ some State.reset.stack.length ∧
    (bounded 2 0 (stacked [1] State.reset)).cfg.stackDepth ≠
      some (bounded 2 0 (stacked [1] State.reset)).stack.length ∧
    (bounded 1 0 (stacked [1] State.reset)).cfg.stackDepth =
      some (bounded 1 0 (stacked [1] State.reset)).stack.length := by decide
/-- PopTakesTop and RetPopsOrTerminates: one entry, and none. -/
theorem test_witness_pop :
    (stacked [7] State.reset).stack = [] ++ [7] ∧ State.reset.stack = [] := by decide
/-- RmemCopiesCell and WmemStoresValue: the last address, and the first beyond. -/
theorem test_witness_memory :
    resolve State.reset (.lit 32767) = .ok (32767 : Cell) ∧ (32767 : Cell).toNat ≤ 32767 ∧
    resolve (writeReg State.reset 1 32768) (.reg 1) = .ok (32768 : Cell) ∧
    32767 < (32768 : Cell).toNat ∧ (writeReg State.reset 1 32768).mem.wf ∧ State.reset.mem.wf :=
  ⟨rfl, by decide, rfl, by decide, by decide, by decide⟩
/-- The first and the last cell of the window, j = 0 and j = 3. -/
theorem test_witness_StoreSeenByNextFetch :
    ((code 0 [16, 3, 0, 21]).mem.wf ∧ (code 0 [16, 3, 0, 21]).runState = .running ∧
      fetch (code 0 [16, 3, 0, 21]) = .ok (.wmem (.lit 3) (.lit 0)) ∧
      resolve (code 0 [16, 3, 0, 21]) (.lit 3) = .ok (3 : Cell) ∧
      resolve (code 0 [16, 3, 0, 21]) (.lit 0) = .ok (0 : Cell) ∧
      (3 : Cell).toNat = (code 0 [16, 3, 0, 21]).pc.toNat + 3 + 0) ∧
    ((code 0 [16, 6, 9]).mem.wf ∧ (code 0 [16, 6, 9]).runState = .running ∧
      fetch (code 0 [16, 6, 9]) = .ok (.wmem (.lit 6) (.lit 9)) ∧
      resolve (code 0 [16, 6, 9]) (.lit 6) = .ok (6 : Cell) ∧
      resolve (code 0 [16, 6, 9]) (.lit 9) = .ok (9 : Cell) ∧
      (6 : Cell).toNat = (code 0 [16, 6, 9]).pc.toNat + 3 + 3) :=
  ⟨⟨by decide, rfl, rfl, rfl, rfl, by decide⟩, ⟨by decide, rfl, rfl, rfl, rfl, by decide⟩⟩
/-- MOD: a divisor, and none. -/
theorem test_witness_ModRemainder :
    (resolve State.reset (.lit 10) = .ok (10 : Cell) ∧ resolve State.reset (.lit 3) = .ok (3 : Cell) ∧
      (3 : Cell) ≠ 0) ∧
    resolve State.reset (.lit 0) = .ok (0 : Cell) := ⟨⟨rfl, rfl, by decide⟩, rfl⟩
theorem test_witness_AluResultsAreWords :
    (∃ t, exec (.add (.reg 0) (.lit 32767) (.lit 32767)) State.reset = .next t ∧ ¬ Stopped t) ∧
    arithmeticDest (.add (.reg 0) (.lit 32767) (.lit 32767)) = some (.reg 0) ∧
    (∃ t, exec (.gt (.reg 7) (.lit 1) (.lit 0)) State.reset = .next t ∧ ¬ Stopped t) :=
  ⟨⟨_, rfl, by rintro ⟨c, h⟩; cases h⟩, rfl, ⟨_, rfl, by rintro ⟨c, h⟩; cases h⟩⟩
theorem test_witness_CallThenRetReturns :
    ∃ t, exec (.call (.lit 7)) (code 2 [17, 7]) = .next t ∧ ¬ Stopped t :=
  ⟨_, rfl, by rintro ⟨c, h⟩; cases h⟩
/-- HaltIsTerminalOutcome and RetPopsOrTerminates, the three cases of a terminal outcome: a snapshot, none, and the non-interactive configuration. -/
theorem test_witness_TerminalOutcome :
    (waiting.cfg.rewindEnable = true ∧
      waiting.history = [] ++ [snapshot (code 0 [20, 32768])]) ∧
    (State.reset.cfg.rewindEnable = true ∧ State.reset.history = [] ∧ State.reset.stack = []) ∧
    (nr State.reset).cfg.rewindEnable = false := by decide
theorem test_witness_InTakesQueuedCode :
    ({ code 0 [20, 32768] with inQ := [98, 10] } : State).inQ = 98 :: [10] := by decide
/-- Without checkpoints, with the last free place of a bounded history, and with none. -/
theorem test_witness_InRequestsLine :
    ((nr State.reset).inQ = [] ∧ (nr State.reset).cfg.rewindEnable = false) ∧
    ((bounded 0 1 State.reset).inQ = [] ∧
      (bounded 0 1 State.reset).cfg.historyDepth ≠ some (bounded 0 1 State.reset).history.length) ∧
    ((bounded 0 1 waiting).inQ = [] ∧ (bounded 0 1 waiting).cfg.rewindEnable = true ∧
      (bounded 0 1 waiting).cfg.historyDepth = some (bounded 0 1 waiting).history.length) := by decide
/-- The empty line, and a line with the largest code. -/
theorem test_witness_DeliverCompletesIn :
    waiting.runState = .awaitLine 0 ∧
    ((∀ x ∈ ([] : List Cell), x.toNat ≤ 32767) ∧ parseCommand [] = none ∧
      ([] : List Cell) ++ [10] = 10 :: []) ∧
    ((∀ x ∈ ([32767] : List Cell), x.toNat ≤ 32767) ∧ parseCommand [32767] = none ∧
      ([32767] : List Cell) ++ [10] = 32767 :: [10]) :=
  ⟨rfl, ⟨by simp, by decide, rfl⟩, ⟨by simp, by decide, rfl⟩⟩
theorem test_witness_DeliveriesRefused :
    (Awaiting waiting ∧ ∃ x ∈ ([65, 32768] : List Cell), 32767 < x.toNat) ∧
    ¬ Awaiting State.reset ∧ ¬ Awaiting { State.reset with runState := .stopped .halted } :=
  ⟨⟨⟨0, rfl⟩, ⟨32768, by simp, by decide⟩⟩, (by rintro ⟨d, h⟩; cases h),
    (by rintro ⟨d, h⟩; cases h)⟩
theorem test_witness_LineSourceOrder :
    (Awaiting { waiting with script := [[97], []] } ∧
      ({ waiting with script := [[97], []] } : State).script = [97] :: [[]]) ∧
    (Awaiting waiting ∧ waiting.script = []) := ⟨⟨⟨0, rfl⟩, rfl⟩, ⟨0, rfl⟩, rfl⟩
/-- Both configurations; `halt`; and `rewind 09`, its digits at both ends of their range. -/
theorem test_witness_CommandGrammar :
    (nr waiting).cfg.rewindEnable = false ∧ waiting.cfg.rewindEnable = true ∧
    commandOf waiting [104, 97, 108, 116] = some .halt ∧
    commandOf waiting [114, 101, 119, 105, 110, 100, 32, 48, 57] = some (.rewind 9) ∧
    commandOf waiting [114, 101, 119, 105, 110, 100, 32, 47] = none ∧
    commandOf waiting [114, 101, 119, 105, 110, 100, 32, 58] = none := by decide
/-- `rewind 0` with one snapshot (the last depth that will do), `rewind 1` with one (the first that
will not), and `rewind 1` with two. -/
theorem test_witness_OperatorCommands :
    Awaiting waiting ∧ waiting.cfg.rewindEnable = true ∧
    (parseCommand [114, 101, 119, 105, 110, 100, 32, 48] = some (.rewind 0) ∧
      waiting.history = [] ++ snapshot (code 0 [20, 32768]) :: [] ∧
      ([] : List Snapshot).length = 0) ∧
    (parseCommand [114, 101, 119, 105, 110, 100, 32, 49] = some (.rewind 1) ∧
      waiting.history.length ≤ 1) ∧
    (∃ c : Snapshot, ({ waiting with history := [c, c] } : State).history = [] ++ c :: [c] ∧
      [c].length = 1) :=
  ⟨⟨0, rfl⟩, rfl, ⟨by decide, rfl, rfl⟩, ⟨by decide, by decide⟩,
    snapshot (code 0 [20, 32768]), rfl, rfl⟩
theorem test_witness_NoCommandsWithoutRewind :
    (nr waiting).runState = .awaitLine 0 ∧ (nr waiting).cfg.rewindEnable = false ∧
    ∀ x ∈ ([104, 97, 108, 116] : List Cell), x.toNat ≤ 32767 := ⟨rfl, rfl, by simp⟩

/-! The invariants, in a waiting state with a snapshot and a bounded history, whose next line is there. -/

/-- `waiting` at the bounds of its stack and history, with a line to come. -/
def full : State := { bounded 0 1 waiting with script := [[97]] }

theorem test_witness_MemoryInv : MemoryInv full := by
  refine ⟨by decide, ?_⟩
  intro c hc
  obtain rfl : c = snapshot (code 0 [20, 32768]) := by simpa [full, bounded, waiting] using hc
  decide
theorem test_witness_BufferInv : BufferInv full where
  words := by rintro x ⟨⟩
  snapshots := by
    intro c hc
    obtain rfl : c = snapshot (code 0 [20, 32768]) := by simpa [full, bounded, waiting] using hc
    exact ⟨rfl, rfl⟩
  awaiting := fun _ => ⟨rfl, rfl⟩
  stopped := fun _ => rfl
theorem test_witness_StatusInv : StatusInv full := fun _ => ⟨rfl, rfl⟩
theorem test_witness_BoundInv : BoundInv full where
  stack := fun _ _ => Nat.zero_le _
  stored := by
    intro n _ c hc
    obtain rfl : c = snapshot (code 0 [20, 32768]) := by simpa [full, bounded, waiting] using hc
    exact Nat.zero_le _
  history := by rintro n ⟨⟩; decide
theorem test_witness_CheckpointInv : CheckpointInv full where
  disabled := by rintro ⟨⟩
  atIn := by rintro d ⟨⟩; rfl
  snapshots := by
    intro c hc
    obtain rfl : c = snapshot (code 0 [20, 32768]) := by simpa [full, bounded, waiting] using hc
    exact ⟨0, rfl⟩
  current := fun _ _ => rfl
theorem test_witness_PortInv : PortInv full where
  awaiting := fun _ => by decide
  others := fun h => absurd ⟨0, rfl⟩ h
/-- The step of the six statements `…InvKept`, EmittedOnlyGrows, HistoryAppendOnly and
ConfigurationFixed. -/
theorem test_witness_step : ∃ t, step full = .next t := ⟨_, rfl⟩

theorem test_witness_RestoredInRequestsAgain :
    BufferInv full ∧ BoundInv full ∧ CheckpointInv full ∧
    full.history = [] ++ snapshot (code 0 [20, 32768]) :: [] ∧ ([] : List Snapshot).length = 0 :=
  ⟨test_witness_BufferInv, test_witness_BoundInv, test_witness_CheckpointInv, rfl, rfl⟩
theorem test_witness_CaptureRestoreRoundTrip :
    (code 0 [20, 32768]).inQ = [] ∧ (code 0 [20, 32768]).cfg.rewindEnable = true ∧
    exec (.inp (.reg 0)) (code 0 [20, 32768]) = .next waiting ∧
    waiting.runState = .awaitLine 0 ∧
    waiting.history = [] ++ [snapshot (code 0 [20, 32768])] ∧
    full.history = [] ++ snapshot (code 0 [20, 32768]) :: [] := ⟨rfl, rfl, rfl, rfl, rfl, rfl⟩
/-- A HALT in a run that has a snapshot; and an IN about to capture the first one. -/
theorem test_witness_CheckpointNeverExhausted :
    (full.cfg.rewindEnable = true ∧ CheckpointInv full ∧ HasCheckpoint full ∧
      ∃ t, step full = .next t) ∧
    HasCheckpoint (code 0 [20, 32768]) :=
  ⟨⟨rfl, test_witness_CheckpointInv, .inl (by decide), _, rfl⟩, .inr ⟨rfl, rfl, 0, rfl⟩⟩
theorem test_witness_StatusRegisterFields :
    State.reset.runState = .running ∧
    ({ waiting with runState := .awaitLine 7 } : State).runState = .awaitLine 7 ∧
    (stop State.reset .historyOverflow 0).runState = .stopped .historyOverflow := by decide
/-- A running core that stops, and a waiting one. -/
theorem test_witness_StopsArePrecise :
    (∃ t, step (code 0 [22]) = .next t ∧ t.runState = .stopped .decodeError ∧
      (code 0 [22]).runState = .running) ∧
    (∃ t, step { waiting with script := [[104, 97, 108, 116]] } = .next t ∧
      t.runState = .stopped .voluntaryAbort ∧
      Awaiting { waiting with script := [[104, 97, 108, 116]] }) :=
  ⟨⟨_, rfl, rfl, rfl⟩, ⟨_, rfl, rfl, 0, rfl⟩⟩
/-- A waiting core whose script offers the largest code; one whose script is empty; a stopped core. -/
theorem test_witness_WhereStepsExist :
    (Awaiting { waiting with script := [[32767]] } ∧
      ∀ L ∈ ({ waiting with script := [[32767]] } : State).script.head?, isLine L = true) ∧
    (Awaiting waiting ∧ ∀ L ∈ waiting.script.head?, isLine L = true) ∧
    isLine [32768] = false ∧
    (stop State.reset .halted 0).runState = .stopped .halted := by
  refine ⟨⟨⟨0, rfl⟩, ?_⟩, ⟨⟨0, rfl⟩, ?_⟩, by decide, rfl⟩
  · rintro L ⟨⟩; decide
  · rintro L ⟨⟩
/-- RegistersWrittenByDest, MemoryWrittenByWmem and StackWrittenByStackOps: a step that changes a
register, one that changes a cell, and one that changes the stack. -/
theorem test_witness_writes :
    (∃ t, step (code 0 [1, 32768, 7]) = .next t ∧ readReg t 0 ≠ readReg (code 0 [1, 32768, 7]) 0) ∧
    (∃ t, step (code 0 [16, 32767, 7]) = .next t ∧
      readMem t 32767 ≠ readMem (code 0 [16, 32767, 7]) 32767) ∧
    (∃ t, step (code 0 [2, 7]) = .next t ∧ t.stack ≠ (code 0 [2, 7]).stack) :=
  ⟨⟨_, rfl, by decide⟩, ⟨_, rfl, by decide⟩, ⟨_, rfl, by decide⟩⟩
/-- An OUT with a pending code, and an OUT whose operand faults, which is no `RunsOut`. -/
theorem test_witness_NoCharacterLost :
    (BufferInv { code 0 [19, 65] with outBuf := [72] } ∧
      RunsOut { code 0 [19, 65] with outBuf := [72] } 65 ∧
      ∃ t, step { code 0 [19, 65] with outBuf := [72] } = .next t) ∧
    (BufferInv (code 0 [19, 40000]) ∧ (∀ v, ¬ RunsOut (code 0 [19, 40000]) v) ∧
      ∃ t, step (code 0 [19, 40000]) = .next t) := by
  refine ⟨⟨⟨?_, ?_, ?_, ?_⟩, ⟨rfl, .lit 65, rfl, rfl⟩, _, rfl⟩, ⟨?_, ?_, ?_, ?_⟩, ?_, _, rfl⟩
  · rintro x ⟨⟩
  · rintro c ⟨⟩
  · rintro ⟨d, h⟩; cases h
  · rintro ⟨c, h⟩; cases h
  · rintro x ⟨⟩
  · rintro c ⟨⟩
  · rintro ⟨d, h⟩; cases h
  · rintro ⟨c, h⟩; cases h
  · rintro v ⟨-, a, ⟨⟩, h⟩; cases h
/-- RET on a stack with an entry, IN on a queue with a code, and a fault that sends the Output Buffer. -/
theorem test_witness_HistoryInvisible :
    (Instr.ret ≠ .halt ∧ (Instr.ret = .ret → (stacked [4] full).stack ≠ []) ∧
      (∀ a, Instr.ret = .inp a → (stacked [4] full).inQ ≠ []) ∧
      ∃ t, exec .ret (stacked [4] full) = .next t) ∧
    (∀ a, Instr.inp (.reg 0) = .inp a → ({ full with inQ := [98, 10] } : State).inQ ≠ []) ∧
    (after (exec (.pop (.reg 0)) { State.reset with outBuf := [72] }) State.ports =
      some [.flush [72]]) :=
  ⟨⟨by decide, fun _ => by decide, (by rintro a ⟨⟩), _, rfl⟩, fun _ _ => by decide, by decide⟩
/-- InvariantsAfterReset and ResetValues. -/
theorem test_witness_boot :
    load [0x15, 0x00] = .ok [(0, 21)] ∧ ∃ s, boot {} [[97]] [0x15, 0x00] = .ok s := ⟨rfl, _, rfl⟩
/-- An odd image, the longest image, and one word more; a byte pair, and the cell after the image. -/
theorem test_witness_LoadPlacesImage :
    [(0x15 : BitVec 8)].length % 2 = 1 ∧
    ((List.replicate 65536 (0 : BitVec 8)).length % 2 = 0 ∧
      (List.replicate 65536 (0 : BitVec 8)).length ≤ 65536) ∧
    ((List.replicate 65538 (0 : BitVec 8)).length % 2 = 0 ∧
      65536 < (List.replicate 65538 (0 : BitVec 8)).length) ∧
    (2 * 0 + 1 < [(0x15 : BitVec 8), 0].length ∧ [(0x15 : BitVec 8), 0].length ≤ 2 * 1) := by
  rw [List.length_replicate, List.length_replicate]
  decide

end Sys2Proof.Tests
end

section
/-! PROOFS. The bounds of the call stack and of the snapshot history (R6, R28, R262): one rule for each
way a step touches the two, then instructions and steps by their shapes. -/

namespace Sys2Proof.Safety

open Sys2Proof.Machine

section

variable {s t : State}

/-- A bound that is kept and not yet reached leaves room for one more. -/
theorem succ_le_bound {depth : Option Nat} {k : Nat} (hle : ∀ n, depth = some n → k ≤ n)
    (hne : depth ≠ some k) : ∀ n, depth = some n → k + 1 ≤ n := by
  intro n hn
  have hk : k ≠ n := fun h => hne (h ▸ hn)
  have := hle n hn
  omega

/-! ### The state's operations -/

/-- What never lengthens the stack and cuts the history at most keeps the bounds. -/
theorem BoundInv.of_le (h : BoundInv s) (hcfg : t.cfg = s.cfg)
    (hstack : t.stack.length ≤ s.stack.length) (hhist : t.history.Sublist s.history) :
    BoundInv t where
  stack n hn := hstack.trans (h.stack n (hcfg ▸ hn))
  stored n hn c hc := h.stored n (hcfg ▸ hn) c (hhist.subset hc)
  history n hn := hhist.length_le.trans (h.history n (hcfg ▸ hn))

/-- The bounds speak of configuration, stack and history only. -/
theorem BoundInv.congr (h : BoundInv s) (hcfg : t.cfg = s.cfg) (hstack : t.stack = s.stack)
    (hhist : t.history = s.history) : BoundInv t :=
  h.of_le hcfg (hstack ▸ Nat.le_refl _) (hhist ▸ List.Sublist.refl _)

theorem BoundInv.flush (h : BoundInv s) : BoundInv (flush s) := h.congr (by simp) (by simp) (by simp)

theorem BoundInv.stop (h : BoundInv s) (c : Cause) (info : Nat) : BoundInv (stop s c info) :=
  h.congr (by simp) (by simp) (by simp)

/-- A push below the bound (R28). -/
theorem BoundInv.push (h : BoundInv s) (hroom : s.cfg.stackDepth ≠ some s.stack.length) (v p : Cell) :
    BoundInv (jump { s with stack := s.stack ++ [v] } p) where
  stack n hn := by simpa using succ_le_bound h.stack hroom n hn
  stored := h.stored
  history := h.history

/-- Dropping the top of the stack. -/
theorem BoundInv.pop (h : BoundInv s) {st : List Cell} {v : Cell} (hs : s.stack = st ++ [v]) :
    BoundInv { s with stack := st } :=
  h.of_le rfl (by simp [hs]) (List.Sublist.refl _)

/-- A capture below the bound (R262): the stored stack is a copy of the live one. -/
theorem BoundInv.capture (h : BoundInv s) (hroom : s.cfg.historyDepth ≠ some s.history.length) :
    BoundInv { s with history := s.history ++ [snapshot s] } where
  stack := h.stack
  stored n hn c hc := by
    rcases List.mem_append.mp hc with hc | hc
    · exact h.stored n hn c hc
    · obtain rfl := List.mem_singleton.mp hc
      exact h.stack n hn
  history n hn := by simpa using succ_le_bound h.history hroom n hn

/-- A stored snapshot made live again: the new live stack was bounded as a stored one (R265). -/
theorem BoundInv.resume (h : BoundInv s) {kept dropped : List Snapshot} {c : Snapshot}
    (hs : s.history = kept ++ c :: dropped) : BoundInv (resume { s with history := kept } c) where
  stack n hn := h.stored n hn c (by simp [hs])
  stored n hn c' hc' := h.stored n hn c' (by rw [hs]; exact List.mem_append_left _ hc')
  history n hn := by
    have hle : (kept ++ c :: dropped).length ≤ n := hs ▸ h.history n hn
    exact (List.sublist_append_left kept _).length_le.trans hle

theorem BoundInv.restore (h : BoundInv s) (n : Nat) : BoundInv (restore s n) := by
  rcases restore_cases s n with ⟨-, ht⟩ | ⟨kept, c, dropped, hs, -, ht⟩
  · exact ht ▸ h.stop _ _
  · exact ht ▸ h.resume hs

theorem BoundInv.terminal (h : BoundInv s) (k : TerminalKind) : BoundInv (terminal s k) := by
  rcases terminal_cases s k with ⟨-, ht⟩ | ⟨-, -, ht⟩ | ⟨kept, c, -, hs, ht⟩
  · exact ht ▸ h.stop _ _
  · exact ht ▸ h.stop _ _
  · exact ht ▸ h.flush.resume (dropped := []) (by simpa using hs)

theorem BoundInv.inputRequest (h : BoundInv s) {d : Fin 8} (ht : inputRequest s d = .ok t) :
    BoundInv t := by
  rcases inputRequest_cases s d with ⟨-, -, he⟩ | ⟨-, hroom, he⟩ | ⟨-, he⟩
  · simp [he] at ht
  · obtain rfl := Except.ok.inj (he.symm.trans ht)
    exact (h.flush.capture (by simpa using hroom)).congr rfl rfl (by simp)
  · obtain rfl := Except.ok.inj (he.symm.trans ht)
    exact h.flush.congr rfl rfl rfl

/-- A line taken from the script or the operator (R239), before the core acts on it. -/
theorem BoundInv.lineTaken (h : BoundInv s) (q : List (List Cell)) (n : Nat) (L : List Cell) :
    BoundInv (note { s with script := q, linePolls := n } (.line L)) := h.congr rfl rfl rfl

/-! ### Instructions and steps -/

theorem BoundInv.execShape {i : Instr} (h : BoundInv s) (hx : ExecShape i s t) : BoundInv t := by
  cases hx with
  | stopped tr hc => exact h.stop _ _
  | terminal k hi => exact h.terminal k
  | request d _ hi hq ht => exact h.inputRequest ht
  | take d c rest hi hq => exact h.congr rfl rfl rfl
  | writeReg d v n hd ho hn => exact h.congr rfl rfl rfl
  | pop d st v hi hs => exact (h.pop hs).congr rfl rfl rfl
  | store a b k v hi ha hb hk => exact h.congr rfl rfl rfl
  | goto p ho hn => exact h.congr rfl rfl rfl
  | push a v p hi hroom => exact h.push hroom v p
  | ret st v hi hs => exact (h.pop hs).congr rfl rfl rfl
  | out a v hi ha => exact h.congr rfl rfl rfl

theorem BoundInv.stepShape (h : BoundInv s) (hx : StepShape s t) : BoundInv t := by
  cases hx with
  | fetchStop tr hr hf => exact h.stop _ _
  | exec i _ hr hf hx => exact h.execShape hx
  | wait d hr => exact h.congr rfl rfl rfl
  | halt d q n L hr hc => exact (h.lineTaken q n L).stop _ _
  | rewind d q n L k hr hc => exact (h.lineTaken q n L).restore k
  | line d q n L c rest hr hl hL => exact (h.lineTaken q n L).congr rfl rfl rfl

end

/-- Settles O53: by the inversion of a step. Only a push and a capture lengthen anything, each below its
bound, and a restored stack was bounded while it was stored. -/
theorem boundInvKept : Obligations.BoundInvKept := by
  unfold Obligations.BoundInvKept
  intro s t h hstep
  exact h.stepShape (step_shape hstep)

end Sys2Proof.Safety
end

section
/-! PROOFS. What a step does to each piece of the state, said once: it stops, restores a snapshot,
requests a line, waits, takes a delivered line, or runs an instruction that updates a few named pieces. -/

namespace Sys2Proof.Machine

variable {s t : State}

/-- What instruction `i` may update when it neither stops, restores nor requests a line; the other
pieces of the core keep their values. -/
structure PlainUpdate (i : Instr) (s t : State) : Prop where
  regs : t.regs = s.regs ∨
    ∃ d v, (Role.dest, Operand.reg d) ∈ i.operands ∧ t.regs = (writeReg s d v).regs
  mem : t.mem = s.mem ∨ ∃ a b k v, i = .wmem a b ∧ resolve s a = .ok k ∧ k.toNat ≤ 32767 ∧
    t.mem = (writeMem s k.toNat v).mem
  stack : t.stack = s.stack ∨
    (∃ a, i = .push a) ∨ (∃ a, i = .pop a) ∨ (∃ a, i = .call a) ∨ i = .ret
  inQ : t.inQ <:+ s.inQ
  history : t.history = s.history
  runState : t.runState = s.runState
  faultPc : t.faultPc = s.faultPc
  faultWord : t.faultWord = s.faultWord
  cfg : t.cfg = s.cfg

/-- The effect of a step. The ports, the script and the counter are left open where they do not
matter. -/
inductive StepEffect (s : State) : State → Prop where
  | stopped (p : List PortEvent) (q : List (List Cell)) (n : Nat) (c : Cause) (info : Nat) :
      StepEffect s (stop { s with ports := p, script := q, linePolls := n } c info)
  | restored (p : List PortEvent) (q : List (List Cell)) (n : Nat) (kept dropped : List Snapshot)
      (c : Snapshot) (hs : s.history = kept ++ c :: dropped) :
      StepEffect s (resume { s with history := kept, ports := p, script := q, linePolls := n } c)
  | requested (d : Fin 8) (hist : List Snapshot) (hq : s.inQ = [])
      (hh : hist = s.history ∨ hist = s.history ++ [snapshot (flush s)]) :
      StepEffect s (note { flush s with history := hist, runState := .awaitLine d } .lineReq)
  | waited (d : Fin 8) (hr : s.runState = .awaitLine d) :
      StepEffect s { s with linePolls := s.linePolls + 1 }
  | delivered (d : Fin 8) (q : List (List Cell)) (n : Nat) (L : List Cell) (c : Cell)
      (rest : List Cell) (hr : s.runState = .awaitLine d) (hl : isLine L = true)
      (hL : L ++ [Config.newline] = c :: rest) :
      StepEffect s { takeInput (note { s with script := q, linePolls := n } (.line L)) d c rest with
        runState := .running }
  | ran (i : Instr) (t : State) (hr : s.runState = .running) (hf : fetch s = .ok i)
      (hu : PlainUpdate i s t) : StepEffect s t

/-- A step leaves a running or a waiting core only (R35). -/
theorem not_stopped_of_step (h : step s = .next t) : ∀ c, s.runState ≠ .stopped c := by
  intro c hc
  simp [step, hc] at h

/-! ### The shared operations -/

/-- A flush before a restore leaves its mark on the ports alone. -/
theorem resume_flush (s : State) (kept : List Snapshot) (c : Snapshot) :
    resume { flush s with history := kept } c =
      resume { s with history := kept, ports := (flush s).ports } c := by
  unfold flush
  split <;> rfl

theorem restore_effect (s : State) (p : List PortEvent) (q : List (List Cell)) (n k : Nat) :
    StepEffect s (restore { s with ports := p, script := q, linePolls := n } k) := by
  rcases restore_cases { s with ports := p, script := q, linePolls := n } k with
    ⟨-, ht⟩ | ⟨kept, c, dropped, hs, -, ht⟩
  · exact ht ▸ .stopped p q n _ _
  · exact ht ▸ .restored p q n kept dropped c hs

theorem terminal_effect (s : State) (k : TerminalKind) : StepEffect s (terminal s k) := by
  rcases terminal_cases s k with ⟨-, ht⟩ | ⟨-, -, ht⟩ | ⟨kept, c, -, hs, ht⟩
  · exact ht ▸ .stopped s.ports s.script s.linePolls _ _
  · exact ht ▸ .stopped s.ports s.script s.linePolls _ _
  · rw [ht, resume_flush]
    exact .restored _ s.script s.linePolls kept [] c hs

theorem inputRequest_effect {d : Fin 8} (hq : s.inQ = []) (ht : inputRequest s d = .ok t) :
    StepEffect s t := by
  rcases inputRequest_cases s d with ⟨-, -, he⟩ | ⟨-, -, he⟩ | ⟨-, he⟩
  · simp [he] at ht
  · obtain rfl := Except.ok.inj (he.symm.trans ht)
    exact .requested d _ hq (.inr rfl)
  · obtain rfl := Except.ok.inj (he.symm.trans ht)
    exact .requested d _ hq (.inl (flush_history s))

/-! ### Instructions and steps -/

/-- An instruction has one of the effects of a step. -/
theorem exec_effect {i : Instr} (hr : s.runState = .running) (hf : fetch s = .ok i)
    (hx : ExecShape i s t) : StepEffect s t := by
  cases hx with
  | stopped tr hc => exact .stopped s.ports s.script s.linePolls _ _
  | terminal k hi => exact terminal_effect s k
  | request d _ hi hq ht => exact inputRequest_effect hq ht
  | take d c rest hi hq =>
    refine .ran i _ hr hf ⟨.inr ⟨d, c, ?_, rfl⟩, .inl rfl, .inl rfl, ?_, rfl, rfl, rfl, rfl, rfl⟩
    · simp [hi, Instr.operands]
    · exact ⟨[c], hq.symm⟩
  | writeReg d v n hd ho hn =>
    exact .ran i _ hr hf
      ⟨.inr ⟨d, v, hd, rfl⟩, .inl rfl, .inl rfl, List.suffix_rfl, rfl, rfl, rfl, rfl, rfl⟩
  | pop d st v hi hs =>
    refine .ran i _ hr hf ⟨.inr ⟨d, v, ?_, rfl⟩, .inl rfl, .inr (.inr (.inl ⟨_, hi⟩)),
      List.suffix_rfl, rfl, rfl, rfl, rfl, rfl⟩
    simp [hi, Instr.operands]
  | store a b k v hi ha hb hk =>
    exact .ran i _ hr hf ⟨.inl rfl, .inr ⟨a, b, k, v, hi, ha, hk, rfl⟩, .inl rfl,
      List.suffix_rfl, rfl, rfl, rfl, rfl, rfl⟩
  | goto p ho hn =>
    exact .ran i _ hr hf
      ⟨.inl rfl, .inl rfl, .inl rfl, List.suffix_rfl, rfl, rfl, rfl, rfl, rfl⟩
  | push a v p hi hroom =>
    have hw : (∃ a, i = .push a) ∨ (∃ a, i = .pop a) ∨ (∃ a, i = .call a) ∨ i = .ret :=
      hi.elim (fun h => .inl ⟨a, h⟩) fun h => .inr (.inr (.inl ⟨a, h⟩))
    exact .ran i _ hr hf
      ⟨.inl rfl, .inl rfl, .inr hw, List.suffix_rfl, rfl, rfl, rfl, rfl, rfl⟩
  | ret st v hi hs =>
    exact .ran i _ hr hf ⟨.inl rfl, .inl rfl, .inr (.inr (.inr (.inr hi))),
      List.suffix_rfl, rfl, rfl, rfl, rfl, rfl⟩
  | out a v hi ha =>
    exact .ran i _ hr hf
      ⟨.inl rfl, .inl rfl, .inl rfl, List.suffix_rfl, rfl, rfl, rfl, rfl, rfl⟩

/-- Say once what a step does; the invariants and frames of this file are read off it. -/
theorem step_effect (h : step s = .next t) : StepEffect s t := by
  cases step_shape h with
  | fetchStop tr hr hf => exact .stopped s.ports s.script s.linePolls _ _
  | exec i _ hr hf hx => exact exec_effect hr hf hx
  | wait d hr => exact .waited d hr
  | halt d q n L hr hc => exact .stopped (s.ports ++ [.line L]) q n _ _
  | rewind d q n L k hr hc => exact restore_effect s (s.ports ++ [.line L]) q n k
  | line d q n L c rest hr hl hL => exact .delivered d q n L c rest hr hl hL

end Sys2Proof.Machine
end

section
/-! PROOFS. The invariants of memories, buffers and STATUS over a step (R21, R32, R40). -/

namespace Sys2Proof.Safety

open Sys2Proof.Machine

section

variable {s t : State}

/-- A step that changes neither the live memory nor the history. -/
theorem MemoryInv.congr (h : MemoryInv s) (hm : t.mem = s.mem) (hh : t.history = s.history) :
    MemoryInv t := by
  obtain ⟨hlive, hstored⟩ := h
  exact ⟨hm ▸ hlive, hh ▸ hstored⟩

/-- A stored memory made live again was canonical as a stored one. -/
theorem MemoryInv.resume (h : MemoryInv s) {kept dropped : List Snapshot} {c : Snapshot}
    (hs : s.history = kept ++ c :: dropped) (hm : t.mem = c.mem) (hh : t.history = kept) :
    MemoryInv t := by
  obtain ⟨-, hstored⟩ := h
  refine ⟨hm ▸ hstored c (by simp [hs]), fun c' hc' => hstored c' ?_⟩
  rw [hs]
  exact List.mem_append_left _ (hh ▸ hc')

/-- A capture stores a copy of the live memory. -/
theorem MemoryInv.capture (h : MemoryInv s) {c : Snapshot} (hc : c.mem = s.mem)
    (hm : t.mem = s.mem) (hh : t.history = s.history ++ [c]) : MemoryInv t := by
  obtain ⟨hlive, hstored⟩ := h
  refine ⟨hm ▸ hlive, fun c' hc' => ?_⟩
  rw [hh] at hc'
  rcases List.mem_append.mp hc' with hc' | hc'
  · exact hstored c' hc'
  · obtain rfl := List.mem_singleton.mp hc'
    exact hc ▸ hlive

theorem MemoryInv.plainUpdate {i : Instr} (h : MemoryInv s) (hu : PlainUpdate i s t) :
    MemoryInv t := by
  rcases hu.mem with hm | ⟨a, b, k, v, -, -, hk, hm⟩
  · exact h.congr hm hu.history
  · obtain ⟨hlive, hstored⟩ := h
    have hk' : k.toNat < Config.memSize := Nat.lt_succ_of_le hk
    exact ⟨hm ▸ Memory.write_wf hlive hk' v, hu.history ▸ hstored⟩

theorem MemoryInv.stepEffect (h : MemoryInv s) (he : StepEffect s t) : MemoryInv t := by
  cases he with
  | stopped p q n c info => exact h.congr (by simp) (by simp)
  | restored p q n kept dropped c hs => exact h.resume hs rfl rfl
  | requested d hist hq hh =>
    rcases hh with rfl | rfl
    · exact h.congr (by simp) rfl
    · exact h.capture (flush_mem s) (by simp) rfl
  | waited d hr => exact h.congr rfl rfl
  | delivered d q n L c rest hr hl hL => exact h.congr rfl rfl
  | ran i _ hr hf hu => exact h.plainUpdate hu

/-! ### Buffers -/

theorem not_awaiting_of_running (h : s.runState = .running) : ¬ Awaiting s := by
  rintro ⟨d, hd⟩
  simp [h] at hd

theorem not_stopped_of_running (h : s.runState = .running) : ¬ Stopped s := by
  rintro ⟨c, hc⟩
  simp [h] at hc

/-- A running core's Output Buffer is free; its queue and snapshots are what is to be shown. -/
theorem BufferInv.of_running (hr : t.runState = .running) (hq : ∀ x ∈ t.inQ, x.toNat ≤ 32767)
    (hh : ∀ c ∈ t.history, c.outBuf = [] ∧ c.inQ = []) : BufferInv t where
  words := hq
  snapshots := hh
  awaiting ha := (not_awaiting_of_running hr ha).elim
  stopped hs := (not_stopped_of_running hr hs).elim

/-- A stop empties the Output Buffer and keeps queue and history (R225, R254). -/
theorem BufferInv.stop (h : BufferInv s) (c : Cause) (info : Nat) : BufferInv (stop s c info) where
  words := by simpa using h.words
  snapshots := by simpa using h.snapshots
  awaiting := by rintro ⟨d, hd⟩; simp at hd
  stopped _ := stop_outBuf s c info

/-- The buffers of a core that has just asked for a line: both empty, and so are those of the snapshot
it may have captured (R232, R262). -/
theorem BufferInv.request (h : BufferInv s) (d : Fin 8) {hist : List Snapshot} (hq : s.inQ = [])
    (hh : hist = s.history ∨ hist = s.history ++ [snapshot (flush s)]) :
    BufferInv (note { flush s with history := hist, runState := .awaitLine d } .lineReq) where
  words := by simp [hq]
  snapshots := by
    rcases hh with rfl | rfl
    · exact h.snapshots
    · intro c hc
      rcases List.mem_append.mp hc with hc | hc
      · exact h.snapshots c hc
      · obtain rfl := List.mem_singleton.mp hc
        exact ⟨flush_outBuf s, (flush_inQ s).trans hq⟩
  awaiting _ := by simp [hq]
  stopped := by rintro ⟨c, hc⟩; simp at hc

/-- The codes of an accepted line, with the newline, are Words (R234). -/
theorem line_words {L rest : List Cell} {c : Cell} (hl : isLine L = true)
    (hL : L ++ [Config.newline] = c :: rest) : ∀ x ∈ rest, x.toNat ≤ 32767 := by
  intro x hx
  have hmem : x ∈ L ++ [Config.newline] := hL ▸ List.mem_cons_of_mem c hx
  rcases List.mem_append.mp hmem with hx | hx
  · exact of_decide_eq_true (List.all_eq_true.mp hl x hx)
  · obtain rfl := List.mem_singleton.mp hx
    decide

theorem BufferInv.stepEffect (h : BufferInv s) (he : StepEffect s t) : BufferInv t := by
  cases he with
  | stopped p q n c info =>
    have hu : BufferInv { s with ports := p, script := q, linePolls := n } := { h with }
    exact hu.stop c info
  | restored p q n kept dropped c hs =>
    refine .of_running rfl (by simp) fun c' hc' => h.snapshots c' ?_
    rw [hs]
    exact List.mem_append_left _ hc'
  | requested d hist hq hh => exact h.request d hq hh
  | waited d hr => exact { h with }
  | delivered d q n L c rest hr hl hL => exact .of_running rfl (line_words hl hL) h.snapshots
  | ran i _ hr hf hu =>
    exact .of_running (hu.runState.trans hr) (fun x hx => h.words x (hu.inQ.subset hx))
      (hu.history ▸ h.snapshots)

/-! ### STATUS -/

/-- A step sets the fault fields at a stop only (R40). -/
theorem faultFields_of_stepEffect (he : StepEffect s t) :
    Stopped t ∨ t.faultPc = s.faultPc ∧ t.faultWord = s.faultWord := by
  cases he with
  | stopped p q n c info => exact .inl ⟨c, rfl⟩
  | restored p q n kept dropped c hs => exact .inr ⟨rfl, rfl⟩
  | requested d hist hq hh => exact .inr (by simp)
  | waited d hr => exact .inr ⟨rfl, rfl⟩
  | delivered d q n L c rest hr hl hL => exact .inr ⟨rfl, rfl⟩
  | ran i _ hr hf hu => exact .inr ⟨hu.faultPc, hu.faultWord⟩

end

/-- Settles O50: by the effect of a step. A store is in range, a captured memory is the live one, and a
restored one was canonical while it was stored. -/
theorem memoryInvKept : Obligations.MemoryInvKept := by
  unfold Obligations.MemoryInvKept
  intro s t h hstep
  exact h.stepEffect (step_effect hstep)

/-- Settles O51: by the effect of a step. A request and a stop flush, a delivered line is one of Words,
and an instruction takes from the queue's head at most. -/
theorem bufferInvKept : Obligations.BufferInvKept := by
  unfold Obligations.BufferInvKept
  intro s t h hstep
  exact h.stepEffect (step_effect hstep)

/-- Settles O52: a step begins in a core that has not stopped, and only a stop sets the two fields. -/
theorem statusInvKept : Obligations.StatusInvKept := by
  unfold Obligations.StatusInvKept
  intro s t h hstep hrun
  have hs : ¬ Stopped s := fun ⟨c, hc⟩ => not_stopped_of_step hstep c hc
  obtain ⟨hpc, hword⟩ := h hs
  rcases faultFields_of_stepEffect (step_effect hstep) with hstop | ⟨hpc', hword'⟩
  · exact absurd hstop hrun
  · exact ⟨hpc'.trans hpc, hword'.trans hword⟩

end Sys2Proof.Safety
end

section
/-! PROOFS. Which steps write the registers, the memory, the call stack, the history and the
configuration (R21, R23, R27, R34, R43). -/

namespace Sys2Proof.Safety

open Sys2Proof.Machine

/-- Settles O42: by the effect of a step; a write to one register leaves the others. -/
theorem registersWrittenByDest : Obligations.RegistersWrittenByDest := by
  unfold Obligations.RegistersWrittenByDest
  intro s t r hstep hne
  cases step_effect hstep with
  | stopped p q n c info => exact (hne (readReg_congr (by simp) r)).elim
  | restored p q n kept dropped c hs => exact .inr (.inr ⟨c, by simp [hs], rfl, rfl⟩)
  | requested d hist hq hh => exact (hne (readReg_congr (by simp) r)).elim
  | waited d hr => exact (hne rfl).elim
  | delivered d q n L c rest hr hl hL =>
    by_cases hrd : r = d
    · exact .inr (.inl (hrd ▸ hr))
    · exact (hne (readReg_writeReg_other s c hrd)).elim
  | ran i _ hr hf hu =>
    rcases hu.regs with hregs | ⟨d, v, hd, hregs⟩
    · exact (hne (readReg_congr hregs r)).elim
    · by_cases hrd : r = d
      · exact .inl ⟨i, hr, hf, hrd ▸ hd⟩
      · exact (hne ((readReg_congr hregs r).trans (readReg_writeReg_other s v hrd))).elim

/-- Settles O43: by the effect of a step; a store leaves the cells at other addresses. -/
theorem memoryWrittenByWmem : Obligations.MemoryWrittenByWmem := by
  unfold Obligations.MemoryWrittenByWmem
  intro s t a hstep hne
  cases step_effect hstep with
  | stopped p q n c info => exact (hne (readMem_congr (by simp) a)).elim
  | restored p q n kept dropped c hs => exact .inr ⟨c, by simp [hs], rfl, rfl⟩
  | requested d hist hq hh => exact (hne (readMem_congr (by simp) a)).elim
  | waited d hr => exact (hne rfl).elim
  | delivered d q n L c rest hr hl hL => exact (hne rfl).elim
  | ran i _ hr hf hu =>
    rcases hu.mem with hm | ⟨x, y, k, v, rfl, hx, -, hm⟩
    · exact (hne (readMem_congr hm a)).elim
    · by_cases hka : k.toNat = a
      · exact .inl ⟨x, y, k, hr, hf, hx, hka⟩
      · exact (hne ((readMem_congr hm a).trans (readMem_writeMem_other s v (Ne.symm hka)))).elim

/-- Settles O44: by the effect of a step. -/
theorem stackWrittenByStackOps : Obligations.StackWrittenByStackOps := by
  unfold Obligations.StackWrittenByStackOps
  intro s t hstep hne
  cases step_effect hstep with
  | stopped p q n c info => exact (hne (by simp)).elim
  | restored p q n kept dropped c hs => exact .inr ⟨c, by simp [hs], rfl, rfl⟩
  | requested d hist hq hh => exact (hne (by simp)).elim
  | waited d hr => exact (hne rfl).elim
  | delivered d q n L c rest hr hl hL => exact (hne rfl).elim
  | ran i _ hr hf hu => exact .inl ⟨i, hr, hf, hu.stack.resolve_left hne⟩

/-- Settles O47: by the effect of a step. Only a restore cuts the history and only a request, which then
waits, appends to it. -/
theorem historyAppendOnly : Obligations.HistoryAppendOnly := by
  unfold Obligations.HistoryAppendOnly
  intro s t hstep
  cases step_effect hstep with
  | stopped p q n c info => exact .inl (by simp)
  | restored p q n kept dropped c hs => exact .inl (hs ▸ List.prefix_append kept _)
  | requested d hist hq hh =>
    rcases hh with rfl | rfl
    · exact .inl List.prefix_rfl
    · exact .inr ⟨snapshot (flush s), rfl, by simp [snapshot]⟩
  | waited d hr => exact .inl List.prefix_rfl
  | delivered d q n L c rest hr hl hL => exact .inl List.prefix_rfl
  | ran i _ hr hf hu => exact .inl (hu.history ▸ List.prefix_rfl)

/-- Settles O49: by the effect of a step. -/
theorem configurationFixed : Obligations.ConfigurationFixed := by
  unfold Obligations.ConfigurationFixed
  intro s t hstep
  cases step_effect hstep with
  | stopped p q n c info => simp
  | restored p q n kept dropped c hs => rfl
  | requested d hist hq hh => simp
  | waited d hr => rfl
  | delivered d q n L c rest hr hl hL => rfl
  | ran i _ hr hf hu => exact hu.cfg

end Sys2Proof.Safety
end

section
/-! PROOFS. No instruction but those that enter the checkpoint controller sees the history, the script
or the transactions so far (R38, R45). -/

namespace Sys2Proof.Machine

section

variable {s : State}

/-- The state with another history, script and list of port transactions. -/
def State.withUnseen (s : State) (h : List Snapshot) (q : List (List Cell)) (p : List PortEvent) :
    State :=
  { s with history := h, script := q, ports := p }

/-- An effect that sees none of the three: with any others it is the same, carried out beside them. -/
def Blind (f : State → Effect) (s : State) : Prop :=
  ∀ h q p, f (s.withUnseen h q p) = (f s).map (·.withUnseen h q p)

/-- The same of an answer: what it sends does not depend on them either. -/
def BlindResult (f : State → Result) (s : State) : Prop :=
  ∀ t, f s = .next t → ∃ sent, t.ports = s.ports ++ sent ∧
    ∀ h q p, f (s.withUnseen h q p) = .next (t.withUnseen h q (p ++ sent))

/-- A blind effect sends nothing: a state beside its own transactions is itself. -/
theorem Blind.ports {f : State → Effect} {t : State} (hf : Blind f s) (ht : f s = .ok t) :
    t.ports = s.ports := by
  have h : f s = (f s).map (·.withUnseen s.history s.script s.ports) :=
    hf s.history s.script s.ports
  rw [ht] at h
  have hsame : t = t.withUnseen s.history s.script s.ports := Except.ok.inj h
  calc t.ports = (t.withUnseen s.history s.script s.ports).ports := congrArg State.ports hsame
    _ = s.ports := rfl

/-- A stop sends the pending codes, whatever was sent before. -/
theorem stop_withUnseen (s : State) (h : List Snapshot) (q : List (List Cell))
    (p : List PortEvent) (c : Cause) (n : Nat) :
    stop (s.withUnseen h q p) c n = (stop s c n).withUnseen h q
      (p ++ if s.outBuf = [] then [] else [.flush s.outBuf]) := by
  by_cases ho : s.outBuf = [] <;> simp [stop, flush, State.withUnseen, note, ho]

/-- An instruction with a blind effect is blind, its stop too. -/
theorem Blind.settle {f : State → Effect} (hf : Blind f s) :
    BlindResult (fun u => settle u (f u)) s := by
  intro t ht
  rcases settle_cases ht with he | ⟨tr, he, rfl⟩
  · refine ⟨[], by simp [hf.ports he], fun h q p => ?_⟩
    simp [hf h q p, he, Except.map]
  · refine ⟨_, (stop_ports s _ _).trans (flush_ports s), fun h q p => ?_⟩
    simp [hf h q p, he, Except.map, raise, stop_withUnseen]

/-! ### The parts of an instruction -/

theorem blind_ok {f : State → State}
    (hf : ∀ h q p, f (s.withUnseen h q p) = (f s).withUnseen h q p) :
    Blind (fun u => .ok (f u)) s := fun h q p => congrArg Except.ok (hf h q p)

/-- Read a value that does not depend on the three, then go on. -/
theorem blind_bind {α : Type} {e : State → Except Trap α} {g : α → State → Effect}
    (he : ∀ h q p, e (s.withUnseen h q p) = e s) (hg : ∀ a, Blind (g a) s) :
    Blind (fun u => e u >>= fun a => g a u) s := by
  intro h q p
  simp only [he h q p]
  cases e s with
  | error tr => rfl
  | ok a => exact hg a h q p

/-- One blind effect after another. -/
theorem blind_then {f g : State → Effect} (hf : Blind f s) (hg : ∀ u, Blind g u) :
    Blind (fun u => f u >>= g) s := by
  intro h q p
  simp only [hf h q p]
  cases f s with
  | error tr => rfl
  | ok u => exact hg u h q p

theorem resolve_withUnseen (s : State) (a : Operand) (h : List Snapshot) (q : List (List Cell))
    (p : List PortEvent) : resolve (s.withUnseen h q p) a = resolve s a := by
  cases a <;> rfl

/-- Resolve a source operand, then go on. -/
theorem blind_resolve (a : Operand) {g : Cell → State → Effect} (hg : ∀ v, Blind (g v) s) :
    Blind (fun u => resolve u a >>= fun v => g v u) s :=
  blind_bind (resolve_withUnseen s a) hg

/-- Check a part that reads no state, then go on. -/
theorem blind_check {α : Type} (e : Except Trap α) {g : α → State → Effect}
    (hg : ∀ a, Blind (g a) s) : Blind (fun u => e >>= fun a => g a u) s :=
  blind_bind (fun _ _ _ => rfl) hg

theorem blind_pushStack (f : State → Cell) (hf : ∀ h q p, f (s.withUnseen h q p) = f s) :
    Blind (fun u => pushStack u (f u)) s := by
  intro h q p
  simp only [hf h q p]
  by_cases hroom : s.cfg.stackDepth = some s.stack.length
  · simp [pushStack, State.withUnseen, hroom, Except.map]
  · simp [pushStack, State.withUnseen, hroom, Except.map]

/-- Pop the call stack, then go on. -/
theorem blind_popStack {g : Cell × State → Effect} (hg : ∀ v u, Blind (fun u => g (v, u)) u) :
    Blind (fun u => popStack u >>= g) s := by
  intro h q p
  rcases eq_nil_or_snoc s.stack with hs | ⟨st, v, hs⟩
  · have hs' : (s.withUnseen h q p).stack = [] := hs
    simp only [popStack_empty hs, popStack_empty hs']
    rfl
  · have hs' : (s.withUnseen h q p).stack = st ++ [v] := hs
    simp only [popStack_concat hs, popStack_concat hs']
    exact hg v { s with stack := st } h q p

/-! ### Instructions -/

theorem blindResult_alu3 (f : Cell → Cell → Except Trap Cell) (a b c : Operand) :
    BlindResult (alu3 f a b c) s :=
  Blind.settle <| blind_check (dest a) fun _ => blind_resolve b fun B => blind_resolve c fun C =>
    blind_check (f B C) fun _ => blind_ok fun _ _ _ => rfl

/-- Blindness of an instruction that is `g` whatever the three are. -/
theorem BlindResult.congr {f g : State → Result} (hg : BlindResult g s) (hs : f s = g s)
    (hu : ∀ h q p, f (s.withUnseen h q p) = g (s.withUnseen h q p)) : BlindResult f s := by
  intro t ht
  obtain ⟨sent, hports, hsame⟩ := hg t (hs ▸ ht)
  exact ⟨sent, hports, fun h q p => (hu h q p).trans (hsame h q p)⟩

/-- RET on a stack with a top entry (R160). -/
theorem execRet_stacked (hs : s.stack ≠ []) :
    execRet s = settle s (popStack s >>= fun x => .ok (jump x.2 x.1)) := by
  simp [execRet, stackEmpty, hs]

theorem blindResult_execRet (hs : s.stack ≠ []) : BlindResult execRet s :=
  (Blind.settle <| blind_popStack fun _ _ => blind_ok fun _ _ _ => rfl).congr
    (execRet_stacked hs) fun _ _ _ => execRet_stacked hs

/-- IN with a queued code (R236). -/
theorem execIn_queued {c : Cell} {rest : List Cell} (a : Operand) (hq : s.inQ = c :: rest) :
    execIn a s = settle s (dest a >>= fun d => .ok (takeInput s d c rest)) := by
  simp [execIn, hq]

theorem blindResult_execIn (a : Operand) (hq : s.inQ ≠ []) : BlindResult (execIn a) s := by
  obtain ⟨c, rest, hc⟩ := List.exists_cons_of_ne_nil hq
  have htake : Blind (fun u => dest a >>= fun d => .ok (takeInput u d c rest)) s :=
    blind_check (dest a) fun _ => blind_ok fun _ _ _ => rfl
  exact htake.settle.congr (execIn_queued a hc) fun _ _ _ => execIn_queued a hc

/-- Every instruction that does not enter the checkpoint controller is blind to the three. -/
theorem blindResult_exec {i : Instr} (hhalt : i ≠ .halt) (hret : i = .ret → s.stack ≠ [])
    (hin : ∀ a, i = .inp a → s.inQ ≠ []) : BlindResult (exec i) s := by
  cases i with
  | halt => exact absurd rfl hhalt
  | set a b =>
    exact Blind.settle <| blind_check (dest a) fun _ => blind_resolve b fun _ =>
      blind_ok fun _ _ _ => rfl
  | push a =>
    exact Blind.settle <| blind_resolve a fun v => blind_then (blind_pushStack (fun _ => v)
      fun _ _ _ => rfl) fun _ => blind_ok fun _ _ _ => rfl
  | pop a =>
    exact Blind.settle <| blind_check (dest a) fun _ => blind_popStack fun _ _ =>
      blind_ok fun _ _ _ => rfl
  | eq a b c => exact blindResult_alu3 _ a b c
  | gt a b c => exact blindResult_alu3 _ a b c
  | jmp a => exact Blind.settle <| blind_resolve a fun _ => blind_ok fun _ _ _ => rfl
  | jt a b =>
    exact Blind.settle <| blind_resolve a fun A => blind_resolve b fun _ => blind_ok fun _ _ _ => by
      cases nonZero A <;> rfl
  | jf a b =>
    exact Blind.settle <| blind_resolve a fun A => blind_resolve b fun _ => blind_ok fun _ _ _ => by
      cases nonZero A <;> rfl
  | add a b c => exact blindResult_alu3 _ a b c
  | mult a b c => exact blindResult_alu3 _ a b c
  | mod a b c => exact blindResult_alu3 _ a b c
  | and a b c => exact blindResult_alu3 _ a b c
  | or a b c => exact blindResult_alu3 _ a b c
  | not a b =>
    exact Blind.settle <| blind_check (dest a) fun _ => blind_resolve b fun _ =>
      blind_ok fun _ _ _ => rfl
  | rmem a b =>
    exact Blind.settle <| blind_check (dest a) fun _ => blind_resolve b fun addr =>
      blind_check (memAddress addr) fun _ => blind_ok fun _ _ _ => rfl
  | wmem a b =>
    exact Blind.settle <| blind_resolve a fun addr => blind_resolve b fun _ =>
      blind_check (memAddress addr) fun _ => blind_ok fun _ _ _ => rfl
  | call a =>
    exact Blind.settle <| blind_resolve a fun _ => blind_then (blind_pushStack (fun u => u.pc + 2)
      fun _ _ _ => rfl) fun _ => blind_ok fun _ _ _ => rfl
  | ret => exact blindResult_execRet (hret rfl)
  | out a => exact Blind.settle <| blind_resolve a fun _ => blind_ok fun _ _ _ => rfl
  | inp a => exact blindResult_execIn a (hin a rfl)
  | noop => exact Blind.settle <| blind_ok fun _ _ _ => rfl

end

end Sys2Proof.Machine

namespace Sys2Proof.Safety

open Sys2Proof.Machine

/-- Settles O48: every part of an instruction but a terminal outcome and an input request gives the same
with any history, script and transactions so far. -/
theorem historyInvisible : Obligations.HistoryInvisible := by
  unfold Obligations.HistoryInvisible
  intro i s t hhalt hret hin ht
  exact blindResult_exec hhalt hret hin t ht

end Sys2Proof.Safety
end

section
/-! PROOFS. The state a run starts in, and the fields of STATUS (R40, R47, R290, R291). -/

namespace Sys2Proof.Safety

open Sys2Proof.Machine

/-- Settles O39: by the cases of the run state and of the stop cause. -/
theorem statusRegisterFields : Obligations.StatusRegisterFields := by
  unfold Obligations.StatusRegisterFields
  intro s
  refine ⟨fun h => ?_, fun d h => ?_, fun c h => ?_, rfl, rfl, fun c => ?_⟩
  · simp [State.status, h, RunState.stateField, RunState.destField, RunState.causeField]
  · simp [State.status, h, RunState.stateField, RunState.destField, RunState.causeField]
  · refine ⟨by simp [State.status, h, RunState.stateField],
      by simp [State.status, h, RunState.destField], ?_⟩
    have hcode : s.status.cause = c.code := by simp [State.status, h, RunState.causeField]
    rw [hcode]
    cases c <;> rfl
  · cases c <;> simp [Cause.fatal]

/-! ### Reset with an image -/

/-- The memory of an image from address `a` up lies at `a` and above. -/
theorem imageCells_above (a : Nat) (bytes : List (BitVec 8)) :
    ∀ p ∈ imageCells a bytes, a ≤ p.1 := by
  fun_induction imageCells a bytes with
  | case1 a lo hi rest h0 ih => exact fun p hp => Nat.le_of_succ_le (ih p hp)
  | case2 a lo hi rest h0 ih =>
    intro p hp
    rcases List.mem_cons.mp hp with rfl | hp
    · exact Nat.le_refl _
    · exact Nat.le_of_succ_le (ih p hp)
  | case3 => simp
  | case4 => simp

/-- An image that fits gives a canonical memory. -/
theorem imageCells_wf (a : Nat) (bytes : List (BitVec 8))
    (hfit : a + bytes.length / 2 ≤ Config.memSize) : (imageCells a bytes).wf := by
  fun_induction imageCells a bytes with
  | case1 a lo hi rest h0 ih =>
    simp only [List.length_cons] at hfit
    exact ih (by omega)
  | case2 a lo hi rest h0 ih =>
    simp only [List.length_cons] at hfit
    exact Memory.wf_cons.mpr
      ⟨imageCells_above (a + 1) rest, show a < _ by omega, h0, ih (by omega)⟩
  | case3 => exact Memory.wf_nil
  | case4 => exact Memory.wf_nil

/-- An accepted image gives a canonical memory (R291). -/
theorem load_wf {bytes : List (BitVec 8)} {m : Memory} (h : load bytes = .ok m) : m.wf := by
  unfold load at h
  split at h
  · cases h
  · split at h
    · cases h
    · cases h
      exact imageCells_wf 0 bytes (by omega)

theorem boot_of_load {cfg : Cfg} {script : List (List Cell)} {bytes : List (BitVec 8)} {m : Memory}
    (h : load bytes = .ok m) :
    boot cfg script bytes = .ok { State.reset with mem := m, cfg := cfg, script := script } := by
  simp [boot, h]

/-- A run starts in the reset state but for memory, configuration and script. -/
theorem boot_cases {cfg : Cfg} {script : List (List Cell)} {bytes : List (BitVec 8)} {s : State}
    (h : boot cfg script bytes = .ok s) :
    ∃ m, load bytes = .ok m ∧
      s = { State.reset with mem := m, cfg := cfg, script := script } := by
  cases hm : load bytes with
  | error e => simp [boot, hm] at h
  | ok m => exact ⟨m, rfl, Except.ok.inj (h.symm.trans (boot_of_load hm))⟩

/-- Settles O56: the loaded memory is canonical, and of the rest everything is empty and running. -/
theorem invariantsAfterReset : Obligations.InvariantsAfterReset := by
  unfold Obligations.InvariantsAfterReset
  intro cfg script bytes s hboot
  obtain ⟨m, hm, rfl⟩ := boot_cases hboot
  refine ⟨⟨load_wf hm, by simp [State.reset]⟩, .of_running rfl (by simp [State.reset])
    (by simp [State.reset]), fun _ => ⟨rfl, rfl⟩, ?_, ?_, ?_⟩
  · constructor <;> simp [State.reset]
  · constructor <;> simp [State.reset, Awaiting]
  · constructor <;> simp [State.reset, Awaiting, requests, lines]

/-- Settles O58: by the definition of the reset. -/
theorem resetValues : Obligations.ResetValues := by
  unfold Obligations.ResetValues
  intro cfg script bytes m hm
  refine ⟨_, boot_of_load hm, rfl, fun r => ?_, rfl, rfl, rfl, rfl, rfl, rfl, rfl, rfl, rfl⟩
  simp [readReg, State.reset]

end Sys2Proof.Safety
end

section
/-! PROOFS. A store into the words that follow it is seen by the next fetch (R71, R74, R123). -/

namespace Sys2Proof.Machine

variable {s : State}

/-- A running core executes what it fetched (R120). -/
theorem step_of_fetch {i : Instr} (hr : s.runState = .running) (hf : fetch s = .ok i) :
    step s = exec i s := by
  simp [step, hr, hf]

theorem memAddress_of_le {k : Cell} (h : k.toNat ≤ 32767) : memAddress k = .ok k.toNat := by
  simp [memAddress, inMemory_iff, h]

/-- A WMEM whose operands resolve to the address of a cell and to a value (R181). -/
theorem exec_wmem_of_resolve {a b : Operand} {k v : Cell} (ha : resolve s a = .ok k)
    (hb : resolve s b = .ok v) (hk : k.toNat ≤ 32767) :
    exec (.wmem a b) s = .next (advance (writeMem s k.toNat v) 3) := by
  simp [exec, execWmem, ha, hb, memAddress_of_le hk]

/-- The fall-through as a number, where 16 bits hold it (R127). -/
theorem advance_pc_toNat {n : Nat} (h : s.pc.toNat + n < 65536) :
    (advance s n).pc.toNat = s.pc.toNat + n := by
  simp only [advance_pc, BitVec.toNat_add, BitVec.toNat_ofNat]
  omega

/-- A window of a memory shows the value stored in one of its cells. -/
theorem cellsFrom_write_getElem {m : Memory} (hm : m.wf) {a n j : Nat} (v : Cell) (hj : j < n)
    (ha : a + j < Config.memSize) : (cellsFrom (m.write (a + j) v) a n)[j]? = some v := by
  rw [cellsFrom_getElem _ a n j hj ha, Memory.read_write_same hm]

end Sys2Proof.Machine

namespace Sys2Proof.Safety

open Sys2Proof.Machine

/-- Settles O15: the WMEM that was fetched stores at the `j`-th cell past itself, and the next fetch
window is read from the memory after the store. -/
theorem storeSeenByNextFetch : Obligations.StoreSeenByNextFetch := by
  unfold Obligations.StoreSeenByNextFetch
  intro s a b k v j hwf hr hf ha hb hk hkj hj
  have hstep : step s = .next (advance (writeMem s k.toNat v) 3) :=
    (step_of_fetch hr hf).trans (exec_wmem_of_resolve ha hb hk)
  have hpc : (advance (writeMem s k.toNat v) 3).pc.toNat = s.pc.toNat + 3 :=
    advance_pc_toNat (show s.pc.toNat + 3 < 65536 by omega)
  have hin : s.pc.toNat + 3 + j < Config.memSize := show _ < 32768 by omega
  refine ⟨_, hstep, hpc, ?_⟩
  rw [hpc, hkj]
  exact cellsFrom_write_getElem hwf v hj hin

end Sys2Proof.Safety
end

section
/-! PROOFS. The operand classes and the encoder against the decoder (30_encoding.md), and the fetch of an
instruction whose words are all in memory (40_dispatch.md R122, R123). -/

namespace Sys2Proof

/-! ### Operand words (R93) -/

/-- Classifying a word 0 to 32767. -/
theorem Operand.ofCell_of_le {w : Cell} (h : w.toNat ≤ 32767) :
    Operand.ofCell w = .lit (w.setWidth 15) := by
  simp [Operand.ofCell, h]

/-- Classifying a word 32768 to 32775. -/
theorem Operand.ofCell_of_reg {w : Cell} (hlo : 32767 < w.toNat) (hhi : w.toNat ≤ 32775) :
    Operand.ofCell w = .reg ⟨w.toNat - 32768, by omega⟩ := by
  simp [Operand.ofCell, hhi, Nat.not_le.mpr hlo]

/-- Classifying a word from 32776 up. -/
theorem Operand.ofCell_of_gt {w : Cell} (h : 32775 < w.toNat) : Operand.ofCell w = .invalid w := by
  have hlit : ¬ w.toNat ≤ 32767 := by omega
  simp [Operand.ofCell, hlit, Nat.not_le.mpr h]

/-- Every word is in one of the three classes. -/
theorem cell_class_cases (w : Cell) :
    w.toNat ≤ 32767 ∨ (32767 < w.toNat ∧ w.toNat ≤ 32775) ∨ 32775 < w.toNat := by
  omega

/-- A classified operand keeps every bit of its word (R98). -/
@[simp] theorem Operand.toCell_ofCell (w : Cell) : (Operand.ofCell w).toCell = w := by
  apply BitVec.eq_of_toNat_eq
  rcases cell_class_cases w with h | ⟨hlo, hhi⟩ | h
  · simp [Operand.ofCell_of_le h, Operand.toCell]; omega
  · simp [Operand.ofCell_of_reg hlo hhi, Operand.toCell]; omega
  · simp [Operand.ofCell_of_gt h, Operand.toCell]

@[simp] theorem Operand.canonical_ofCell (w : Cell) : (Operand.ofCell w).canonical = true := by
  rcases cell_class_cases w with h | ⟨hlo, hhi⟩ | h
  · rw [Operand.ofCell_of_le h]; rfl
  · rw [Operand.ofCell_of_reg hlo hhi]; rfl
  · simp [Operand.ofCell_of_gt h, Operand.canonical, h]

/-- A canonical operand is the classification of its own word. -/
theorem Operand.ofCell_toCell {a : Operand} (h : a.canonical = true) :
    Operand.ofCell a.toCell = a := by
  cases a with
  | lit v =>
    have hv : (Operand.lit v).toCell.toNat = v.toNat := by simp [Operand.toCell]; omega
    rw [Operand.ofCell_of_le (by omega)]
    simp [Operand.toCell]
  | reg r =>
    have hr : (Operand.reg r).toCell.toNat = 32768 + r.val := by simp [Operand.toCell]; omega
    rw [Operand.ofCell_of_reg (by omega) (by omega)]
    simp [hr]
  | invalid w =>
    have hw : 32775 < w.toNat := by simpa [Operand.canonical] using h
    exact Operand.ofCell_of_gt hw

/-- An operand that fits its role is canonical. -/
theorem Operand.canonical_of_fits {r : Role} {a : Operand} (h : a.fits r = true) :
    a.canonical = true := by
  cases a with
  | lit v => rfl
  | reg q => rfl
  | invalid w => cases r <;> cases h

theorem Instr.canonical_of_wellFormed {i : Instr} (h : i.wellFormed = true) :
    i.canonical = true := by
  simp only [Instr.wellFormed, Instr.canonical, List.all_eq_true] at h ⊢
  exact fun p hp => Operand.canonical_of_fits (h p hp)

theorem Instr.arity_le (i : Instr) : i.arity ≤ 3 := by
  cases i <;> simp [Instr.arity, Instr.operands]

/-! ### Decoding what was encoded, by format (R91)

The hypothesis of each lemma is `Instr.canonical` as it reads for an instruction of the format. -/

theorem takeZ1_toCell {r : Role} {a : Operand}
    (h : [(r, a)].all (fun p => p.2.canonical) = true) (k : Operand → Instr) (rest : List Cell) :
    takeZ1 k (a.toCell :: rest) = .ok (k a, rest) := by
  have ha : a.canonical = true := by simpa using h
  rw [takeZ1, Operand.ofCell_toCell ha]

theorem takeZ2_toCell {r q : Role} {a b : Operand}
    (h : [(r, a), (q, b)].all (fun p => p.2.canonical) = true) (k : Operand → Operand → Instr)
    (rest : List Cell) : takeZ2 k (a.toCell :: b.toCell :: rest) = .ok (k a b, rest) := by
  obtain ⟨ha, hb⟩ : a.canonical = true ∧ b.canonical = true := by simpa using h
  rw [takeZ2, Operand.ofCell_toCell ha, Operand.ofCell_toCell hb]

theorem takeZ3_toCell {r q p : Role} {a b c : Operand}
    (h : [(r, a), (q, b), (p, c)].all (fun p => p.2.canonical) = true)
    (k : Operand → Operand → Operand → Instr) (rest : List Cell) :
    takeZ3 k (a.toCell :: b.toCell :: c.toCell :: rest) = .ok (k a b c, rest) := by
  obtain ⟨ha, hb, hc⟩ : a.canonical = true ∧ b.canonical = true ∧ c.canonical = true := by
    simpa using h
  rw [takeZ3, Operand.ofCell_toCell ha, Operand.ofCell_toCell hb, Operand.ofCell_toCell hc]

/-- The decoder reads an encoded canonical instruction back: its opcode word selects the format that
takes its operand words (R91, R95). -/
theorem decode_encode {i : Instr} (h : i.canonical = true) (rest : List Cell) :
    decode (encode i ++ rest) = .ok (i, rest) := by
  cases i with
  | halt | ret | noop => rfl
  | push a => exact takeZ1_toCell h .push rest
  | pop a => exact takeZ1_toCell h .pop rest
  | jmp a => exact takeZ1_toCell h .jmp rest
  | call a => exact takeZ1_toCell h .call rest
  | out a => exact takeZ1_toCell h .out rest
  | inp a => exact takeZ1_toCell h .inp rest
  | set a b => exact takeZ2_toCell h .set rest
  | jt a b => exact takeZ2_toCell h .jt rest
  | jf a b => exact takeZ2_toCell h .jf rest
  | not a b => exact takeZ2_toCell h .not rest
  | rmem a b => exact takeZ2_toCell h .rmem rest
  | wmem a b => exact takeZ2_toCell h .wmem rest
  | eq a b c => exact takeZ3_toCell h .eq rest
  | gt a b c => exact takeZ3_toCell h .gt rest
  | add a b c => exact takeZ3_toCell h .add rest
  | mult a b c => exact takeZ3_toCell h .mult rest
  | mod a b c => exact takeZ3_toCell h .mod rest
  | and a b c => exact takeZ3_toCell h .and rest
  | or a b c => exact takeZ3_toCell h .or rest

/-! ### Encoding what was decoded, by format (R91, R98) -/

section
variable {op : Cell} {ws rest : List Cell} {i : Instr} {n : Nat}

/-- The cells `ws` are the words of the canonical instruction `i`, then `rest`. -/
def IsWordsOf (i : Instr) (rest ws : List Cell) : Prop :=
  encode i ++ rest = ws ∧ i.canonical = true

/-- The words of an instruction whose operands classify the cells `as`. -/
theorem isWordsOf_of_operands {as : List Cell} (hop : op.toNat = n) (hi : i.opcode.toNat = n)
    (has : i.operands.map Prod.snd = as.map Operand.ofCell) :
    IsWordsOf i rest (op :: (as ++ rest)) := by
  have hopcode : i.opcode = op := BitVec.eq_of_toNat_eq (hi.trans hop.symm)
  have hwords : i.operands.map (fun p => p.2.toCell) = as := by
    calc i.operands.map (fun p => p.2.toCell)
        = (i.operands.map Prod.snd).map Operand.toCell := by simp
      _ = as := by simp [has, Function.comp_def]
  have hcanon : i.canonical = (i.operands.map Prod.snd).all Operand.canonical := by
    simp [Instr.canonical, Function.comp_def]
  exact ⟨by simp [encode, hopcode, hwords], by simp [hcanon, has]⟩

theorem isWordsOf_takeZ0 {j : Instr} (hop : op.toNat = n)
    (hj : j.opcode.toNat = n ∧ j.operands.map Prod.snd = [])
    (h : takeZ0 j ws = .ok (i, rest)) : IsWordsOf i rest (op :: ws) := by
  cases h
  exact isWordsOf_of_operands (as := []) hop hj.1 hj.2

theorem isWordsOf_takeZ1 {k : Operand → Instr} (hop : op.toNat = n)
    (hk : ∀ a, (k a).opcode.toNat = n ∧ (k a).operands.map Prod.snd = [a])
    (h : takeZ1 k ws = .ok (i, rest)) : IsWordsOf i rest (op :: ws) := by
  match ws, h with
  | a :: _, rfl => exact isWordsOf_of_operands (as := [a]) hop (hk _).1 (hk _).2

theorem isWordsOf_takeZ2 {k : Operand → Operand → Instr} (hop : op.toNat = n)
    (hk : ∀ a b, (k a b).opcode.toNat = n ∧ (k a b).operands.map Prod.snd = [a, b])
    (h : takeZ2 k ws = .ok (i, rest)) : IsWordsOf i rest (op :: ws) := by
  match ws, h with
  | a :: b :: _, rfl => exact isWordsOf_of_operands (as := [a, b]) hop (hk _ _).1 (hk _ _).2

theorem isWordsOf_takeZ3 {k : Operand → Operand → Operand → Instr} (hop : op.toNat = n)
    (hk : ∀ a b c, (k a b c).opcode.toNat = n ∧ (k a b c).operands.map Prod.snd = [a, b, c])
    (h : takeZ3 k ws = .ok (i, rest)) : IsWordsOf i rest (op :: ws) := by
  match ws, h with
  | a :: b :: c :: _, rfl =>
    exact isWordsOf_of_operands (as := [a, b, c]) hop (hk _ _ _).1 (hk _ _ _).2

/-- Row by row of the opcode map (R95). -/
theorem isWordsOf_decodeOp (h : decodeOp op ws = .ok (i, rest)) : IsWordsOf i rest (op :: ws) := by
  unfold decodeOp at h
  split at h <;> rename_i hop
  · exact isWordsOf_takeZ0 (j := .halt) hop ⟨rfl, rfl⟩ h
  · exact isWordsOf_takeZ2 (k := .set) hop (fun _ _ => ⟨rfl, rfl⟩) h
  · exact isWordsOf_takeZ1 (k := .push) hop (fun _ => ⟨rfl, rfl⟩) h
  · exact isWordsOf_takeZ1 (k := .pop) hop (fun _ => ⟨rfl, rfl⟩) h
  · exact isWordsOf_takeZ3 (k := .eq) hop (fun _ _ _ => ⟨rfl, rfl⟩) h
  · exact isWordsOf_takeZ3 (k := .gt) hop (fun _ _ _ => ⟨rfl, rfl⟩) h
  · exact isWordsOf_takeZ1 (k := .jmp) hop (fun _ => ⟨rfl, rfl⟩) h
  · exact isWordsOf_takeZ2 (k := .jt) hop (fun _ _ => ⟨rfl, rfl⟩) h
  · exact isWordsOf_takeZ2 (k := .jf) hop (fun _ _ => ⟨rfl, rfl⟩) h
  · exact isWordsOf_takeZ3 (k := .add) hop (fun _ _ _ => ⟨rfl, rfl⟩) h
  · exact isWordsOf_takeZ3 (k := .mult) hop (fun _ _ _ => ⟨rfl, rfl⟩) h
  · exact isWordsOf_takeZ3 (k := .mod) hop (fun _ _ _ => ⟨rfl, rfl⟩) h
  · exact isWordsOf_takeZ3 (k := .and) hop (fun _ _ _ => ⟨rfl, rfl⟩) h
  · exact isWordsOf_takeZ3 (k := .or) hop (fun _ _ _ => ⟨rfl, rfl⟩) h
  · exact isWordsOf_takeZ2 (k := .not) hop (fun _ _ => ⟨rfl, rfl⟩) h
  · exact isWordsOf_takeZ2 (k := .rmem) hop (fun _ _ => ⟨rfl, rfl⟩) h
  · exact isWordsOf_takeZ2 (k := .wmem) hop (fun _ _ => ⟨rfl, rfl⟩) h
  · exact isWordsOf_takeZ1 (k := .call) hop (fun _ => ⟨rfl, rfl⟩) h
  · exact isWordsOf_takeZ0 (j := .ret) hop ⟨rfl, rfl⟩ h
  · exact isWordsOf_takeZ1 (k := .out) hop (fun _ => ⟨rfl, rfl⟩) h
  · exact isWordsOf_takeZ1 (k := .inp) hop (fun _ => ⟨rfl, rfl⟩) h
  · exact isWordsOf_takeZ0 (j := .noop) hop ⟨rfl, rfl⟩ h
  · cases h

theorem isWordsOf_decode (h : decode ws = .ok (i, rest)) : IsWordsOf i rest ws := by
  cases ws with
  | nil => cases h
  | cons op ws => exact isWordsOf_decodeOp h

end

/-- Settles O1: a well-formed instruction is canonical, so the decoder reads it back. -/
theorem decodeOfEncode : Obligations.DecodeOfEncode := by
  unfold Obligations.DecodeOfEncode
  intro i rest hwf
  exact decode_encode (Instr.canonical_of_wellFormed hwf) rest

/-- Settles O2, row by row of the opcode map. -/
theorem encodeOfDecode : Obligations.EncodeOfDecode := by
  unfold Obligations.EncodeOfDecode
  intro ws rest i h
  exact isWordsOf_decode h

/-- Settles O4, from what classifying a word of each range gives. -/
theorem operandClasses : Obligations.OperandClasses := by
  unfold Obligations.OperandClasses
  intro w
  refine ⟨fun h => ⟨_, Operand.ofCell_of_le h, ?_⟩,
    fun ⟨hlo, hhi⟩ => ⟨_, Operand.ofCell_of_reg hlo hhi, rfl, ?_⟩, Operand.ofCell_of_gt⟩
  · simp only [BitVec.toNat_setWidth]; omega
  · simp only [BitVec.extractLsb'_toNat, Nat.shiftRight_zero]; omega

end Sys2Proof

namespace Sys2Proof.Machine

/-- Settles O3: each example is the encoding of its instruction, and the bytes load as the last one's
words. -/
theorem exampleWordsDecode : Obligations.ExampleWordsDecode := by
  unfold Obligations.ExampleWordsDecode
  exact ⟨decode_encode (i := .noop) rfl [], decode_encode (i := .out (.lit 65)) rfl [],
    decode_encode (i := .set (.reg 1) (.reg 0)) rfl [],
    decode_encode (i := .add (.reg 0) (.reg 0) (.lit 1)) rfl [], _, rfl, rfl⟩

/-- The fetch of an instruction that the cells at the cursor decode to (R121). -/
theorem fetch_of_decode {s : State} {i : Instr} {rest : List Cell} (hpc : s.pc.toNat ≤ 32767)
    (h : decode (cellsFrom s.mem s.pc.toNat 4) = .ok (i, rest)) : fetch s = .ok i := by
  simp [fetch, fetchAt, inMemory_iff, hpc, h]

/-- Words that stand in memory from address `a` up begin the window there. -/
theorem words_begin_cellsFrom {m : Memory} {a n : Nat} {ws : List Cell} (hn : ws.length ≤ n)
    (ha : a + ws.length ≤ Config.memSize) (h : ∀ j (hj : j < ws.length), m.read (a + j) = ws[j]) :
    ws <+: cellsFrom m a n := by
  rw [List.prefix_iff_getElem?]
  intro j hj
  rw [cellsFrom_getElem m a n j (by omega) (by omega), h j hj]

/-- Settles O7: the instruction's words begin the fetch window, and the decoder reads them back. -/
theorem fetchReadsOperandWords : Obligations.FetchReadsOperandWords := by
  unfold Obligations.FetchReadsOperandWords
  intro s i hfit hcanon hop hoperands
  have hlen : (encode i).length = i.arity + 1 := by simp [encode, Instr.arity]
  have harity := i.arity_le
  have hread : ∀ j (hj : j < (encode i).length), s.mem.read (s.pc.toNat + j) = (encode i)[j] := by
    intro j hj
    cases j with
    | zero => exact hop.symm
    | succ k =>
      have hk : k < i.operands.length := by rw [hlen] at hj; exact Nat.lt_of_succ_lt_succ hj
      simpa [encode, readMem, Nat.add_assoc, Nat.add_comm 1] using hoperands k hk
  have hend : s.pc.toNat + (encode i).length ≤ Config.memSize := show _ ≤ 32768 by omega
  obtain ⟨rest, hwindow⟩ := words_begin_cellsFrom (n := 4) (by omega) hend hread
  exact fetch_of_decode (by omega) (hwindow ▸ decode_encode hcanon rest)

end Sys2Proof.Machine
end

section
/-! PROOFS. The operands in their roles and their check before any effect (40_dispatch.md R124 to
R126), the fetch faults (R121, R122, R256), and the precision of every stop (R128, R254, R257). -/

namespace Sys2Proof.Machine

variable {s : State}

/-! ### Operands in their roles (R124, R125, R126) -/

/-- The cause an operand raises when it does not fit its role (R124, R125). -/
def roleFault : Role → Cause
  | .dest => .invalidDestination
  | .src  => .invalidOperand

/-- An operand passes its check exactly when it fits its role (R97). -/
theorem checkOperand_ok_iff (r : Role) (a : Operand) :
    checkOperand r a = .ok () ↔ a.fits r = true := by
  cases r <;> cases a <;> simp [checkOperand, dest, Operand.fits, Except.map]

/-- An operand that does not fit its role raises the role's fault with its word. -/
theorem checkOperand_of_not_fits {r : Role} {a : Operand} (h : a.fits r = false) :
    checkOperand r a = .error ⟨roleFault r, a.toCell.toNat⟩ := by
  cases r <;> cases a <;> first | rfl | cases h

theorem dest_of_not_fits {a : Operand} (h : a.fits .dest = false) :
    dest a = .error ⟨.invalidDestination, a.toCell.toNat⟩ :=
  checkOperand_dest (checkOperand_of_not_fits h)

theorem resolve_of_not_fits {a : Operand} (h : a.fits .src = false) :
    resolve s a = .error ⟨.invalidOperand, a.toCell.toNat⟩ :=
  checkOperand_src (checkOperand_of_not_fits h)

/-- A list of operands passes its check exactly when every one fits its role. -/
theorem checkOperands_ok_iff (ps : List (Role × Operand)) :
    checkOperands ps = .ok () ↔ ps.all (fun p => p.2.fits p.1) = true := by
  induction ps with
  | nil => simp [checkOperands]
  | cons p ps ih =>
    obtain ⟨r, a⟩ := p
    cases hfit : a.fits r with
    | true => simpa [checkOperands, (checkOperand_ok_iff r a).mpr hfit, hfit] using ih
    | false => simp [checkOperands, checkOperand_of_not_fits hfit, hfit]

/-- The check goes past the operands that fit and stops at the first that does not. -/
theorem checkOperands_of_first {before after : List (Role × Operand)} {r : Role} {a : Operand}
    (hbefore : ∀ p ∈ before, p.2.fits p.1 = true) (ha : a.fits r = false) :
    checkOperands (before ++ (r, a) :: after) = .error ⟨roleFault r, a.toCell.toNat⟩ := by
  induction before with
  | nil => simp [checkOperands, checkOperand_of_not_fits ha]
  | cons p before ih =>
    obtain ⟨hp, hrest⟩ := List.forall_mem_cons.mp hbefore
    simpa [checkOperands, (checkOperand_ok_iff p.1 p.2).mpr hp] using ih hrest

/-- Settles O8: by the three classes of operand words; the faults are those of operands that do not
fit their role. -/
theorem operandRoles : Obligations.OperandRoles := by
  unfold Obligations.OperandRoles
  intro s w
  refine ⟨fun h => ?_, fun r h => ?_, fun h => ?_, fun h => ?_⟩
  · have hword : (Operand.lit (w.setWidth 15)).toCell = w := by
      simpa [Operand.ofCell_of_le h] using Operand.toCell_ofCell w
    rw [Operand.ofCell_of_le h]
    exact congrArg Except.ok hword
  · have hreg : Operand.ofCell w = .reg r := by
      rw [Operand.ofCell_of_reg (by omega) (by omega)]
      simp [h]
    rw [hreg]
    exact ⟨rfl, rfl⟩
  · rw [Operand.ofCell_of_gt h]
    exact resolve_of_not_fits rfl
  · have hfit : (Operand.ofCell w).fits .dest = false := by
      rcases h with h | h
      · rw [Operand.ofCell_of_le (by omega)]; rfl
      · rw [Operand.ofCell_of_gt h]; rfl
    simpa using dest_of_not_fits hfit

/-! ### Fetch and its faults (R121, R122, R256) -/

/-- Settles O5: the fetch gives the decoded instruction, and the step runs what was fetched. -/
theorem stepRunsDecoded : Obligations.StepRunsDecoded := by
  unfold Obligations.StepRunsDecoded
  intro s i rest hr hpc hdecode
  exact step_of_fetch hr (fetch_of_decode hpc hdecode)

/-- An opcode word above 21 is unknown, whatever follows it (R97). -/
theorem decode_of_unknown {op : Cell} (h : 21 < op.toNat) (ws : List Cell) :
    decode (op :: ws) = .error (.unknownOpcode op) := by
  simp only [decode, decodeOp]
  split
  case h_23 => rfl
  all_goals omega

theorem takeZ1_short (k : Operand → Instr) {ws : List Cell} (h : ws.length < 1) :
    takeZ1 k ws = .error .operandsCut := by
  match ws, h with
  | [], _ => rfl

theorem takeZ2_short (k : Operand → Operand → Instr) {ws : List Cell} (h : ws.length < 2) :
    takeZ2 k ws = .error .operandsCut := by
  match ws, h with
  | [], _ => rfl
  | [_], _ => rfl

theorem takeZ3_short (k : Operand → Operand → Operand → Instr) {ws : List Cell}
    (h : ws.length < 3) : takeZ3 k ws = .error .operandsCut := by
  match ws, h with
  | [], _ => rfl
  | [_], _ => rfl
  | [_, _], _ => rfl

/-- An opcode with fewer cells after it than its arity is cut, by its format (R91, R97). -/
theorem decode_of_short {i : Instr} {ws : List Cell} (h : ws.length < i.arity) :
    decode (i.opcode :: ws) = .error .operandsCut := by
  cases i with
  | halt | ret | noop => exact absurd h (Nat.not_lt_zero _)
  | push => exact takeZ1_short .push h
  | pop => exact takeZ1_short .pop h
  | jmp => exact takeZ1_short .jmp h
  | call => exact takeZ1_short .call h
  | out => exact takeZ1_short .out h
  | inp => exact takeZ1_short .inp h
  | set => exact takeZ2_short .set h
  | jt => exact takeZ2_short .jt h
  | jf => exact takeZ2_short .jf h
  | not => exact takeZ2_short .not h
  | rmem => exact takeZ2_short .rmem h
  | wmem => exact takeZ2_short .wmem h
  | eq => exact takeZ3_short .eq h
  | gt => exact takeZ3_short .gt h
  | add => exact takeZ3_short .add h
  | mult => exact takeZ3_short .mult h
  | mod => exact takeZ3_short .mod h
  | and => exact takeZ3_short .and h
  | or => exact takeZ3_short .or h

/-- A window holds no cell above the last one (R122). -/
theorem cellsFrom_length_le (m : Memory) (a n : Nat) :
    (cellsFrom m a n).length ≤ Config.memSize - a := by
  induction n generalizing a with
  | zero => exact Nat.zero_le _
  | succ n ih =>
    by_cases ha : a < Config.memSize
    · have := ih (a + 1)
      simp only [cellsFrom, ha, if_true, List.length_cons]
      omega
    · simp [cellsFrom, ha]

/-- Above the last cell nothing is fetched (R121, decision D5). -/
theorem fetch_of_pc_gt (h : 32767 < s.pc.toNat) : fetch s = .error ⟨.exited, 0⟩ := by
  simp [fetch, fetchAt, inMemory, Nat.not_le.mpr h]

/-- With the cursor in memory the opcode word heads the window, and the fetch fails as the decoder
does. -/
theorem fetch_of_reject {e : Reject} (hpc : s.pc.toNat ≤ 32767)
    (h : decode (readMem s s.pc.toNat :: cellsFrom s.mem (s.pc.toNat + 1) 3) = .error e) :
    fetch s = .error (rejectTrap e) := by
  have hwindow : cellsFrom s.mem s.pc.toNat 4 =
      readMem s s.pc.toNat :: cellsFrom s.mem (s.pc.toNat + 1) 3 :=
    if_pos (Nat.lt_succ_of_le hpc)
  simp [fetch, fetchAt, inMemory_iff, hpc, hwindow, h]

/-- A running core that cannot fetch raises the fetch fault. -/
theorem step_of_fetch_error {tr : Trap} (hr : s.runState = .running) (hf : fetch s = .error tr) :
    step s = raise s tr := by
  simp [step, hr, hf]

end Sys2Proof.Machine

namespace Sys2Proof.Safety

open Sys2Proof.Machine Sys2Proof.Claims

section

variable {s t : State}

/-- A running core that cannot fetch stops. -/
theorem stops_of_fetch_error {tr : Trap} (hr : s.runState = .running) (hf : fetch s = .error tr) :
    ∃ t, step s = .next t ∧ StoppedWith s t tr.cause (BitVec.ofNat 16 tr.info) :=
  ⟨_, step_of_fetch_error hr hf, stop_stoppedWith s tr.cause tr.info⟩

/-- The first operand that does not fit its role stops the run with its word, for every instruction
(R126, decision D24). -/
theorem operandFaults (i : Instr) : OperandFaults i := by
  intro s before after r a hops hbefore ha
  have hcheck : validate i = .error ⟨roleFault r, a.toCell.toNat⟩ := by
    rw [validate, hops]
    exact checkOperands_of_first hbefore ha
  refine ⟨_, exec_of_invalid s hcheck, ?_⟩
  have hstop := stop_stoppedWith s (roleFault r) a.toCell.toNat
  rw [BitVec.ofNat_toNat, BitVec.setWidth_eq] at hstop
  cases r <;> exact hstop

/-! ### Precise stops (R128, R254, R257) -/

/-- If `t` is stopped, whatever the cause, it is the stop of `s` and nothing more. -/
def PreciseStop (s t : State) : Prop :=
  ∀ c, t.runState = .stopped c → StoppedWith s t c t.faultWord

theorem preciseStop_of_not_stopped (h : ¬ Stopped t) : PreciseStop s t :=
  fun c hc => (h ⟨c, hc⟩).elim

theorem preciseStop_of_running (h : t.runState = .running) : PreciseStop s t :=
  preciseStop_of_not_stopped (not_stopped_of_running h)

theorem preciseStop_stop (s : State) (c : Cause) (n : Nat) : PreciseStop s (stop s c n) := by
  intro c' hc
  obtain rfl : c = c' := by simpa using hc
  exact stop_stoppedWith s c n

theorem preciseStop_restore (s : State) (n : Nat) : PreciseStop s (restore s n) := by
  rcases restore_cases s n with ⟨-, ht⟩ | ⟨kept, c, dropped, -, -, ht⟩
  · exact ht ▸ preciseStop_stop s _ _
  · exact ht ▸ preciseStop_of_running rfl

theorem preciseStop_terminal (s : State) (k : TerminalKind) : PreciseStop s (terminal s k) := by
  rcases terminal_cases s k with ⟨-, ht⟩ | ⟨-, -, ht⟩ | ⟨kept, c, -, -, ht⟩
  · exact ht ▸ preciseStop_stop s _ _
  · exact ht ▸ preciseStop_stop s _ _
  · exact ht ▸ preciseStop_of_running rfl

/-- An accepted input request waits. -/
theorem awaiting_of_inputRequest {d : Fin 8} (h : inputRequest s d = .ok t) :
    t.runState = .awaitLine d := by
  rcases inputRequest_cases s d with ⟨-, -, he⟩ | ⟨-, -, he⟩ | ⟨-, he⟩
  · simp [he] at h
  · obtain rfl := Except.ok.inj (he.symm.trans h)
    rfl
  · obtain rfl := Except.ok.inj (he.symm.trans h)
    rfl

/-- An instruction stops by a fault or a terminal outcome only, each of them precise. -/
theorem preciseStop_exec {i : Instr} (hr : s.runState = .running) (hx : ExecShape i s t) :
    PreciseStop s t := by
  cases hx with
  | stopped tr hc => exact preciseStop_stop s _ _
  | terminal k hi => exact preciseStop_terminal s k
  | request d _ hi hq ht =>
    refine preciseStop_of_not_stopped ?_
    rintro ⟨c, hc⟩
    simp [awaiting_of_inputRequest ht] at hc
  | take d c rest hi hq => exact preciseStop_of_running hr
  | writeReg d v n hd ho hn => exact preciseStop_of_running hr
  | pop d st v hi hs => exact preciseStop_of_running hr
  | store a b k v hi ha hb hk => exact preciseStop_of_running hr
  | goto p ho hn => exact preciseStop_of_running hr
  | push a v p hi hroom => exact preciseStop_of_running hr
  | ret st v hi hs => exact preciseStop_of_running hr
  | out a v hi ha => exact preciseStop_of_running hr

theorem changesOnly_note (s : State) (e : PortEvent) : ChangesOnly [.ports] s (note s e) := by
  intro p hp
  cases p <;> first | rfl | exact (hp (by simp)).elim

/-- The line that a command came in is a transaction that puts nothing on the console, so a stop after
it is a stop of the state before it. -/
theorem StoppedWith.of_note_line {c : Cause} {w : Cell} {L : List Cell}
    (h : StoppedWith (note s (.line L)) t c w) : StoppedWith s t c w where
  runState := h.runState
  faultPc := h.faultPc
  faultWord := h.faultWord
  emptied := h.emptied
  emitted := by simpa [PortEvent.console] using h.emitted
  rest := ((changesOnly_note s (.line L)).mono (by simp)).trans h.rest

/-- A precise stop after a delivered line: the stop keeps the script and the counter, so they are
those of the delivery (log 6). -/
theorem PreciseStop.of_delivery {q : List (List Cell)} {n : Nat} {L : List Cell}
    (h : PreciseStop (note { s with script := q, linePolls := n } (.line L)) t) :
    PreciseStop { s with script := t.script, linePolls := t.linePolls } t := by
  intro c hc
  have hstop := (h c hc).of_note_line
  have hq : t.script = q := hstop.rest .script (by simp)
  have hn : t.linePolls = n := hstop.rest .linePolls (by simp)
  rw [hq, hn]
  exact hstop

/-- Every step, of a running or of a waiting core, stops precisely if it stops. -/
theorem preciseStop_step (hx : StepShape s t) :
    (s.runState = .running ∧ PreciseStop s t) ∨
    (Awaiting s ∧ PreciseStop { s with script := t.script, linePolls := t.linePolls } t) := by
  cases hx with
  | fetchStop tr hr hf => exact .inl ⟨hr, preciseStop_stop s _ _⟩
  | exec i _ hr hf hx => exact .inl ⟨hr, preciseStop_exec hr hx⟩
  | wait d hr =>
    refine .inr ⟨⟨d, hr⟩, preciseStop_of_not_stopped ?_⟩
    rintro ⟨c, hc⟩
    simp [hr] at hc
  | halt d q n L hr hc => exact .inr ⟨⟨d, hr⟩, (preciseStop_stop _ _ _).of_delivery⟩
  | rewind d q n L k hr hc => exact .inr ⟨⟨d, hr⟩, (preciseStop_restore _ k).of_delivery⟩
  | line d q n L c rest hr hl hL => exact .inr ⟨⟨d, hr⟩, preciseStop_of_running rfl⟩

end

/-- Settles O9: the check stops at the first operand that does not fit, and it comes before the
effect. -/
theorem operandsCheckedInOrder : Obligations.OperandsCheckedInOrder := by
  unfold Obligations.OperandsCheckedInOrder
  intro i
  exact ⟨operandFaults i, checkOperands_ok_iff i.operands⟩

/-- Settles O6: each clause but the last names what the fetch finds at the cursor; the last is the
fetch of an instruction whose one word is in memory. -/
theorem fetchFaults : Obligations.FetchFaults := by
  unfold Obligations.FetchFaults
  intro s hr
  refine ⟨fun hpc => ?_, fun hpc hop => ?_, fun i hpc hop hend => ?_, fun i hpc hop harity => ?_⟩
  · exact stops_of_fetch_error hr (fetch_of_pc_gt hpc)
  · have hfetch := fetch_of_reject hpc (decode_of_unknown hop _)
    simpa [rejectTrap] using stops_of_fetch_error hr hfetch
  · have hshort : (cellsFrom s.mem (s.pc.toNat + 1) 3).length < i.arity := by
      have hlen : _ ≤ 32768 - (s.pc.toNat + 1) := cellsFrom_length_le s.mem (s.pc.toNat + 1) 3
      omega
    have hfetch := fetch_of_reject hpc (hop ▸ decode_of_short hshort)
    exact stops_of_fetch_error hr hfetch
  · have hnone : i.operands = [] := List.length_eq_zero_iff.mp harity
    refine fetchReadsOperandWords s i (by omega) (by simp [Instr.canonical, hnone]) (hpc ▸ hop) ?_
    intro k hk
    simp [hnone] at hk

/-- Settles O40: by the inversion of a step. Whatever stops the run is the stop of the state the
step began in, of a waiting core after the delivered line. -/
theorem stopsArePrecise : Obligations.StopsArePrecise := by
  unfold Obligations.StopsArePrecise
  intro s t c hstep hc
  rcases preciseStop_step (step_shape hstep) with ⟨hr, hstop⟩ | ⟨hwait, hstop⟩
  · exact ⟨fun _ => hstop c hc, fun ha => (not_awaiting_of_running hr ha).elim⟩
  · exact ⟨fun hr => (not_awaiting_of_running hr hwait).elim, fun _ => hstop c hc⟩

end Sys2Proof.Safety
end

section
/-! PROOFS. The control transfer instructions (41_control.md R150 to R162): what each gives, said once,
and its frame. -/

namespace Sys2Proof.Machine

variable {s t : State}

/-! ### The condition and the call stack -/

theorem nonZero_iff (v : Cell) : nonZero v = true ↔ v.toNat ≠ 0 := by
  simp [nonZero, ← BitVec.toNat_inj]

theorem pushStack_of_room (h : s.cfg.stackDepth ≠ some s.stack.length) (v : Cell) :
    pushStack s v = .ok { s with stack := s.stack ++ [v] } := if_neg h

theorem pushStack_of_full (h : s.cfg.stackDepth = some s.stack.length) (v : Cell) :
    pushStack s v = .error ⟨.stackOverflow, 0⟩ := if_pos h

/-! ### Instructions whose operands resolve -/

theorem exec_jmp_of_resolve {a : Operand} {v : Cell} (ha : resolve s a = .ok v) :
    exec (.jmp a) s = .next (jump s v) := by
  simp [exec, execJmp, ha]

theorem exec_jt_of_resolve {a b : Operand} {A B : Cell} (ha : resolve s a = .ok A)
    (hb : resolve s b = .ok B) :
    exec (.jt a b) s = .next (jump s (if A.toNat = 0 then s.pc + 3 else B)) := by
  by_cases h : A.toNat = 0
  · simp [exec, execJt, ha, hb, nonZero_iff, h, advance]
  · simp [exec, execJt, ha, hb, nonZero_iff, h]

theorem exec_jf_of_resolve {a b : Operand} {A B : Cell} (ha : resolve s a = .ok A)
    (hb : resolve s b = .ok B) :
    exec (.jf a b) s = .next (jump s (if A.toNat = 0 then B else s.pc + 3)) := by
  by_cases h : A.toNat = 0
  · simp [exec, execJf, ha, hb, nonZero_iff, h]
  · simp [exec, execJf, ha, hb, nonZero_iff, h, advance]

theorem exec_call_of_room {a : Operand} {v : Cell} (ha : resolve s a = .ok v)
    (hroom : s.cfg.stackDepth ≠ some s.stack.length) :
    exec (.call a) s = .next (jump { s with stack := s.stack ++ [s.pc + 2] } v) := by
  simp [exec, execCall, ha, pushStack_of_room hroom]

theorem exec_call_of_full {a : Operand} {v : Cell} (ha : resolve s a = .ok v)
    (hfull : s.cfg.stackDepth = some s.stack.length) :
    exec (.call a) s = .next (stop s .stackOverflow 0) := by
  simp [exec, execCall, ha, pushStack_of_full hfull, raise]

/-- A CALL that does not stop the run pushed the return address and jumped (R158). -/
theorem exec_call_cases {a : Operand} (h : exec (.call a) s = .next t) :
    (∃ c, t.runState = .stopped c) ∨
      ∃ v, t = jump { s with stack := s.stack ++ [s.pc + 2] } v := by
  rcases settle_cases h with h | ⟨tr, -, rfl⟩
  · obtain ⟨v, -, h⟩ := bind_ok_cases h
    obtain ⟨u, hu, h⟩ := bind_ok_cases h
    obtain ⟨-, rfl⟩ := pushStack_cases hu
    exact .inr ⟨v, (Except.ok.inj h).symm⟩
  · exact .inl ⟨tr.cause, rfl⟩

/-! ### RET -/

theorem exec_ret_of_concat {st : List Cell} {v : Cell} (hs : s.stack = st ++ [v]) :
    exec .ret s = .next (jump { s with stack := st } v) := by
  have hne : s.stack ≠ [] := by simp [hs]
  calc exec .ret s = settle s (popStack s >>= fun x => .ok (jump x.2 x.1)) := execRet_stacked hne
    _ = .next (jump { s with stack := st } v) := by rw [popStack_concat hs]; rfl

theorem exec_ret_of_nil (hs : s.stack = []) : exec .ret s = .next (terminal s .retEmpty) := by
  simp [exec, execRet, stackEmpty, hs]

end Sys2Proof.Machine

namespace Sys2Proof.Safety

open Sys2Proof.Machine Sys2Proof.Claims

theorem changesOnly_stack (s : State) (st : List Cell) :
    ChangesOnly [.stack] s { s with stack := st } := by
  intro p hp
  cases p with
  | stack => exact (hp (by simp)).elim
  | _ => rfl

/-- The frame of CALL and RET: another call stack, then a jump. -/
theorem changesOnly_stack_jump (s : State) (st : List Cell) (v : Cell) :
    ChangesOnly [.pc, .stack] s (jump { s with stack := st } v) :=
  ((changesOnly_stack s st).mono (by simp)).trans ((changesOnly_jump _ v).mono (by simp))

/-- Settles O21: each of the three is a jump of the state it began in, JT and JF to one of two
targets; the operand faults are those of every instruction. -/
theorem jumpsSetCursor : Obligations.JumpsSetCursor := by
  unfold Obligations.JumpsSetCursor
  refine ⟨fun s a v ha => ?_, fun s a b A B ha hb => ⟨?_, ?_⟩, fun a b => ?_⟩
  · exact ⟨_, exec_jmp_of_resolve ha, rfl, changesOnly_jump s _⟩
  · exact ⟨_, exec_jt_of_resolve ha hb, rfl, changesOnly_jump s _⟩
  · exact ⟨_, exec_jf_of_resolve ha hb, rfl, changesOnly_jump s _⟩
  · exact ⟨operandFaults (.jmp a), operandFaults (.jt a b), operandFaults (.jf a b)⟩

/-- Settles O22: the push finds room or overflows; the target was resolved before it. -/
theorem callPushesReturn : Obligations.CallPushesReturn := by
  unfold Obligations.CallPushesReturn
  refine ⟨fun s a v ha => ⟨fun hroom => ?_, fun hfull => ?_⟩, fun a => operandFaults (.call a)⟩
  · exact ⟨_, exec_call_of_room ha hroom, rfl, rfl, changesOnly_stack_jump s _ v⟩
  · exact ⟨_, exec_call_of_full ha hfull, stop_stoppedWith s _ 0⟩

/-- Settles O23: RET looks at the stack before it pops, so an empty stack is a terminal outcome. -/
theorem retPopsOrTerminates : Obligations.RetPopsOrTerminates := by
  unfold Obligations.RetPopsOrTerminates
  intro s
  refine ⟨fun st v hs => ?_, fun hs => ?_⟩
  · exact ⟨_, exec_ret_of_concat hs, rfl, rfl, changesOnly_stack_jump s st v⟩
  · exact ⟨_, exec_ret_of_nil hs, terminal_outcome s .retEmpty⟩

/-- Settles O24: the RET pops the return address that the CALL pushed, so the two together are a jump
of the state before the CALL past the CALL. -/
theorem callThenRetReturns : Obligations.CallThenRetReturns := by
  unfold Obligations.CallThenRetReturns
  intro s t a hcall hrun
  rcases exec_call_cases hcall with hstop | ⟨v, rfl⟩
  · exact absurd hstop hrun
  · have hret : exec .ret (jump { s with stack := s.stack ++ [s.pc + 2] } v) =
        .next (jump s (s.pc + 2)) := exec_ret_of_concat rfl
    exact ⟨_, hret, rfl, rfl, changesOnly_jump s _⟩

/-- Settles O25: HALT is the terminal outcome of its kind, which keeps the cursor when it stops. -/
theorem haltIsTerminalOutcome : Obligations.HaltIsTerminalOutcome := by
  unfold Obligations.HaltIsTerminalOutcome
  intro s
  exact ⟨_, rfl, terminal_outcome s .halt⟩

/-- Settles O26: NOOP is the fall-through alone (R127). -/
theorem noopOnlyAdvances : Obligations.NoopOnlyAdvances := by
  unfold Obligations.NoopOnlyAdvances
  intro s
  exact ⟨_, rfl, rfl, changesOnly_advance s 1⟩

end Sys2Proof.Safety
end

section
/-! PROOFS. The register move, stack and memory instructions (42_move_and_stack.md R170 to R181): what
each gives when its operands fit, said once, and its frame. -/

namespace Sys2Proof.Machine

variable {s : State}

theorem memAddress_of_gt {k : Cell} (h : 32767 < k.toNat) :
    memAddress k = .error ⟨.addressOutOfRange, k.toNat⟩ := by
  have hk : ¬ k.toNat ≤ 32767 := by omega
  simp [memAddress, inMemory_iff, hk]

theorem exec_set_of_resolve {b : Operand} {v : Cell} (d : Fin 8) (hb : resolve s b = .ok v) :
    exec (.set (.reg d) b) s = .next (advance (writeReg s d v) 3) := by
  simp [exec, execSet, dest, hb]

/-! ### The call stack (R172, R174) -/

theorem exec_push_of_room {a : Operand} {v : Cell} (ha : resolve s a = .ok v)
    (hroom : s.cfg.stackDepth ≠ some s.stack.length) :
    exec (.push a) s = .next (advance { s with stack := s.stack ++ [v] } 2) := by
  simp [exec, execPush, ha, pushStack_of_room hroom]

theorem exec_push_of_full {a : Operand} {v : Cell} (ha : resolve s a = .ok v)
    (hfull : s.cfg.stackDepth = some s.stack.length) :
    exec (.push a) s = .next (stop s .stackOverflow 0) := by
  simp [exec, execPush, ha, pushStack_of_full hfull, raise]

theorem exec_pop_of_concat {st : List Cell} {v : Cell} (d : Fin 8) (hs : s.stack = st ++ [v]) :
    exec (.pop (.reg d)) s = .next (advance (writeReg { s with stack := st } d v) 2) := by
  simp [exec, execPop, dest, popStack_concat hs]

theorem exec_pop_of_nil (d : Fin 8) (hs : s.stack = []) :
    exec (.pop (.reg d)) s = .next (stop s .stackUnderflow 0) := by
  simp [exec, execPop, dest, popStack_empty hs, raise]

/-! ### Memory (R178, R181) -/

theorem exec_rmem_of_le {b : Operand} {k : Cell} (d : Fin 8) (hb : resolve s b = .ok k)
    (hk : k.toNat ≤ 32767) :
    exec (.rmem (.reg d) b) s = .next (advance (writeReg s d (readMem s k.toNat)) 3) := by
  simp [exec, execRmem, dest, hb, memAddress_of_le hk]

theorem exec_rmem_of_gt {b : Operand} {k : Cell} (d : Fin 8) (hb : resolve s b = .ok k)
    (hk : 32767 < k.toNat) :
    exec (.rmem (.reg d) b) s = .next (stop s .addressOutOfRange k.toNat) := by
  simp [exec, execRmem, dest, hb, memAddress_of_gt hk, raise]

theorem exec_wmem_of_gt {a b : Operand} {k v : Cell} (ha : resolve s a = .ok k)
    (hb : resolve s b = .ok v) (hk : 32767 < k.toNat) :
    exec (.wmem a b) s = .next (stop s .addressOutOfRange k.toNat) := by
  simp [exec, execWmem, ha, hb, memAddress_of_gt hk, raise]

end Sys2Proof.Machine

namespace Sys2Proof.Safety

open Sys2Proof.Machine Sys2Proof.Claims

/-- A register write that falls through, as the statements of SET, RMEM and the ALU put it. -/
theorem writesReg_advance (s : State) (d : Fin 8) (v : Cell) (n : Nat) :
    WritesReg s d v.toNat n (advance (writeReg s d v) n) :=
  ⟨congrArg BitVec.toNat (readReg_writeReg_same s d v), rfl, changesOnly_writeReg s d v n⟩

/-- A stop whose information is a whole cell reports that cell in `FAULT_WORD` (R40). -/
theorem stop_toNat_stoppedWith (s : State) (c : Cause) (w : Cell) :
    StoppedWith s (stop s c w.toNat) c w := by
  have hw : BitVec.ofNat 16 w.toNat = w := by rw [BitVec.ofNat_toNat, BitVec.setWidth_eq]
  simpa only [hw] using stop_stoppedWith s c w.toNat

/-- The frame of PUSH: another call stack, then the fall-through. -/
theorem changesOnly_stack_advance (s : State) (st : List Cell) (n : Nat) :
    ChangesOnly [.pc, .stack] s (advance { s with stack := st } n) :=
  changesOnly_stack_jump s st _

/-- The frame of POP: another call stack, then a register write that falls through. -/
theorem changesOnly_stack_writeReg (s : State) (st : List Cell) (d : Fin 8) (v : Cell) (n : Nat) :
    ChangesOnly [.pc, .reg d, .stack] s (advance (writeReg { s with stack := st } d v) n) :=
  ((changesOnly_stack s st).mono (by simp)).trans ((changesOnly_writeReg _ d v n).mono (by simp))

/-- Settles O10: SET is a register write of the resolved value; the operand faults are those of every
instruction. -/
theorem setCopiesValue : Obligations.SetCopiesValue := by
  unfold Obligations.SetCopiesValue
  refine ⟨fun s d b v hb => ?_, fun a b => operandFaults (.set a b)⟩
  exact ⟨_, exec_set_of_resolve d hb, writesReg_advance s d v 3⟩

/-- Settles O11: the push finds room or overflows. -/
theorem pushAppendsValue : Obligations.PushAppendsValue := by
  unfold Obligations.PushAppendsValue
  refine ⟨fun s a v ha => ⟨fun hroom => ?_, fun hfull => ?_⟩, fun a => operandFaults (.push a)⟩
  · exact ⟨_, exec_push_of_room ha hroom, rfl, rfl, changesOnly_stack_advance s _ 2⟩
  · exact ⟨_, exec_push_of_full ha hfull, stop_stoppedWith s _ 0⟩

/-- Settles O12: the pop finds a top entry or underflows, and the fault is that of the state before
it, so the register and the stack keep their values. -/
theorem popTakesTop : Obligations.PopTakesTop := by
  unfold Obligations.PopTakesTop
  refine ⟨fun s d => ⟨fun st v hs => ?_, fun hs => ?_⟩, fun a => operandFaults (.pop a)⟩
  · exact ⟨_, exec_pop_of_concat d hs, readReg_writeReg_same _ d v, rfl, rfl,
      changesOnly_stack_writeReg s st d v 2⟩
  · exact ⟨_, exec_pop_of_nil d hs, stop_stoppedWith s _ 0⟩

/-- Settles O13: the resolved address names a cell, which is written whole to the register, or lies
beyond the memory. -/
theorem rmemCopiesCell : Obligations.RmemCopiesCell := by
  unfold Obligations.RmemCopiesCell
  refine ⟨fun s d b k hb => ⟨fun hk => ?_, fun hk => ?_⟩, fun a b => operandFaults (.rmem a b)⟩
  · exact ⟨_, exec_rmem_of_le d hb hk, writesReg_advance s d _ 3⟩
  · exact ⟨_, exec_rmem_of_gt d hb hk, stop_toNat_stoppedWith s _ k⟩

/-- Settles O14: the resolved address names a cell, which reads the value stored because the memory is
canonical, or lies beyond the memory. -/
theorem wmemStoresValue : Obligations.WmemStoresValue := by
  unfold Obligations.WmemStoresValue
  refine ⟨fun s a b k v hwf ha hb => ⟨fun hk => ?_, fun hk => ?_⟩,
    fun a b => operandFaults (.wmem a b)⟩
  · exact ⟨_, exec_wmem_of_resolve ha hb hk, readMem_writeMem_same hwf _ v, rfl,
      changesOnly_writeMem s _ v 3⟩
  · exact ⟨_, exec_wmem_of_gt ha hb hk, stop_toNat_stoppedWith s _ k⟩

end Sys2Proof.Safety
end

section
/-! PROOFS. The compare, arithmetic and bitwise instructions (43_alu.md): the value of each ALU function
as an exact number, then what an instruction over it leaves, said once for all `Z3` instructions. -/

namespace Sys2Proof.Machine

/-! ### The ALU functions on exact numbers (R190 to R206) -/

theorem toNat_truth (p : Prop) [Decidable p] : (truth (decide p)).toNat = if p then 1 else 0 := by
  by_cases h : p <;> simp [truth, h]

theorem truth_eq_zero_or_one (b : Bool) : truth b = 0 ∨ truth b = 1 := by
  cases b with
  | false => exact .inl rfl
  | true => exact .inr rfl

theorem toNat_aluEq (B C : Cell) : (aluEq B C).toNat = if B.toNat = C.toNat then 1 else 0 := by
  simp only [aluEq, toNat_truth, BitVec.toNat_inj]

theorem toNat_aluGt (B C : Cell) : (aluGt B C).toNat = if B.toNat > C.toNat then 1 else 0 :=
  toNat_truth _

/-- The reduced value fits a cell, so narrowing is exactly the reduction modulo 32768 (R206). -/
theorem toNat_narrow (n : Nat) : (narrow n).toNat = n % 32768 := by
  simp only [narrow, BitVec.toNat_ofNat]
  omega

theorem aluMod_of_ne_zero {C : Cell} (B : Cell) (h : C ≠ 0) :
    aluMod B C = .ok (narrow (B.toNat % C.toNat)) := if_neg h

theorem aluMod_zero (B : Cell) : aluMod B 0 = .error ⟨.arithmeticError, 0⟩ := rfl

/-- The mask of AND and OR is the reduction modulo 32768 (R206). -/
theorem toNat_and_mask (v : Cell) : (v &&& 0x7FFF).toNat = v.toNat % 32768 :=
  Nat.and_two_pow_sub_one_eq_mod v.toNat 15

theorem toNat_aluAnd (B C : Cell) : (aluAnd B C).toNat = (B.toNat &&& C.toNat) % 32768 :=
  toNat_and_mask (B &&& C)

theorem toNat_aluOr (B C : Cell) : (aluOr B C).toNat = (B.toNat ||| C.toNat) % 32768 :=
  toNat_and_mask (B ||| C)

/-- NOT is the complement in 15 bits, widened with bit 15 clear (R204). -/
theorem aluNot_eq (B : Cell) : aluNot B = (~~~(B.setWidth 15)).setWidth 16 := by
  rw [← BitVec.allOnes_xor, BitVec.setWidth_xor]
  rfl

theorem toNat_aluNot (B : Cell) : (aluNot B).toNat = 32767 - B.toNat % 32768 := by
  rw [aluNot_eq, BitVec.toNat_setWidth, BitVec.toNat_not, BitVec.toNat_setWidth]
  omega

/-! ### Every arithmetic result is a Word (R207) -/

/-- A cell value in the range of a Word (R7). -/
def IsWord (v : Cell) : Prop := v.toNat ≤ 32767

theorem isWord_of_mod {v : Cell} {n : Nat} (h : v.toNat = n % 32768) : IsWord v := by
  unfold IsWord
  omega

theorem isWord_narrow (n : Nat) : IsWord (narrow n) := isWord_of_mod (toNat_narrow n)

theorem isWord_mask (v : Cell) : IsWord (v &&& 0x7FFF) := isWord_of_mod (toNat_and_mask v)

theorem isWord_aluNot (B : Cell) : IsWord (aluNot B) := by
  have h := toNat_aluNot B
  unfold IsWord
  omega

theorem isWord_aluMod {B C v : Cell} (h : aluMod B C = .ok v) : IsWord v := by
  by_cases hC : C = 0
  · subst hC
    cases h
  · obtain rfl := Except.ok.inj ((aluMod_of_ne_zero B hC).symm.trans h)
    exact isWord_narrow _

/-! ### The instructions on resolved operands -/

section

variable {s : State} {f : Cell → Cell → Except Trap Cell} {b c : Operand} {B C : Cell}

theorem alu3_of_resolve {v : Cell} (d : Fin 8) (hb : resolve s b = .ok B) (hc : resolve s c = .ok C)
    (hf : f B C = .ok v) : alu3 f (.reg d) b c s = .next (advance (writeReg s d v) 4) := by
  simp [alu3, dest, hb, hc, hf]

theorem alu3_of_error {tr : Trap} (d : Fin 8) (hb : resolve s b = .ok B) (hc : resolve s c = .ok C)
    (hf : f B C = .error tr) : alu3 f (.reg d) b c s = .next (stop s tr.cause tr.info) := by
  simp [alu3, dest, hb, hc, hf, raise]

theorem exec_not_of_resolve (d : Fin 8) (hb : resolve s b = .ok B) :
    exec (.not (.reg d) b) s = .next (advance (writeReg s d (aluNot B)) 3) := by
  simp [exec, execNot, dest, hb]

end

end Sys2Proof.Machine

namespace Sys2Proof.Safety

open Sys2Proof.Machine Sys2Proof.Claims

section

variable {s t : State} {i : Instr} {f : Cell → Cell → Except Trap Cell} {g : Cell → Cell → Cell}
  {d : Fin 8} {b c : Operand} {B C : Cell}

/-- A `Z3` instruction that `alu3` runs writes its function's value, given here as a number. -/
theorem completes_of_alu3 {v : Cell} {n : Nat} (hi : exec i s = alu3 f (.reg d) b c s)
    (hb : resolve s b = .ok B) (hc : resolve s c = .ok C) (hf : f B C = .ok v) (hv : v.toNat = n) :
    Completes i s (WritesReg s d n 4) :=
  ⟨_, hi.trans (alu3_of_resolve d hb hc hf), hv ▸ writesReg_advance s d v 4⟩

/-- What holds of every value of its function holds of the register that a `Z3` instruction wrote. -/
theorem alu3_result {P : Cell → Prop} (hf : ∀ B C v, f B C = .ok v → P v)
    (h : alu3 f (.reg d) b c s = .next t) (hrun : ¬ Stopped t) : P (readReg t d) := by
  rcases settle_cases h with h | ⟨tr, -, rfl⟩
  · obtain ⟨_, hd, h⟩ := bind_ok_cases h
    obtain ⟨B, -, h⟩ := bind_ok_cases h
    obtain ⟨C, -, h⟩ := bind_ok_cases h
    obtain ⟨v, hv, h⟩ := bind_ok_cases h
    cases hd
    cases h
    exact (readReg_writeReg_same s d v).symm ▸ hf B C v hv
  · exact (hrun ⟨tr.cause, rfl⟩).elim

/-- `alu3_result` for a function that raises no fault. -/
theorem alu3_total_result {P : Cell → Prop} (hg : ∀ B C, P (g B C))
    (h : alu3 (fun B C => .ok (g B C)) (.reg d) b c s = .next t) (hrun : ¬ Stopped t) :
    P (readReg t d) :=
  alu3_result (fun B C _ hv => Except.ok.inj hv ▸ hg B C) h hrun

/-- A comparison leaves 0 or 1. -/
theorem truth_result {p : Cell → Cell → Bool}
    (h : alu3 (fun B C => .ok (truth (p B C))) (.reg d) b c s = .next t) (hrun : ¬ Stopped t) :
    readReg t d = 0 ∨ readReg t d = 1 :=
  alu3_total_result (P := fun v => v = 0 ∨ v = 1) (fun B C => truth_eq_zero_or_one (p B C)) h hrun

theorem not_result (h : exec (.not (.reg d) b) s = .next t) (hrun : ¬ Stopped t) :
    ∃ B, readReg t d = aluNot B := by
  rcases settle_cases h with h | ⟨tr, -, rfl⟩
  · obtain ⟨_, hd, h⟩ := bind_ok_cases h
    obtain ⟨B, -, h⟩ := bind_ok_cases h
    cases hd
    cases h
    exact ⟨B, readReg_writeReg_same s d _⟩
  · exact (hrun ⟨tr.cause, rfl⟩).elim

/-- The instructions of R207, one by one; no other has an arithmetic destination. -/
theorem isWord_arithmetic_result (h : exec i s = .next t) (hd : arithmeticDest i = some (.reg d))
    (hrun : ¬ Stopped t) : IsWord (readReg t d) := by
  cases i with
  | add a b c => cases hd; exact alu3_total_result (fun _ _ => isWord_narrow _) h hrun
  | mult a b c => cases hd; exact alu3_total_result (fun _ _ => isWord_narrow _) h hrun
  | mod a b c => cases hd; exact alu3_result (fun _ _ _ => isWord_aluMod) h hrun
  | and a b c => cases hd; exact alu3_total_result (fun _ _ => isWord_mask _) h hrun
  | or a b c => cases hd; exact alu3_total_result (fun _ _ => isWord_mask _) h hrun
  | not a b =>
    cases hd
    obtain ⟨B, hB⟩ := not_result h hrun
    exact hB ▸ isWord_aluNot B
  | _ => cases hd

end

/-- Settles O16: both are `Z3` instructions over a truth value. -/
theorem comparesWriteTruth : Obligations.ComparesWriteTruth := by
  unfold Obligations.ComparesWriteTruth
  refine ⟨fun s d b c B C hb hc => ⟨?_, ?_⟩, fun a b c => ⟨operandFaults _, operandFaults _⟩⟩
  · exact completes_of_alu3 rfl hb hc rfl (toNat_aluEq B C)
  · exact completes_of_alu3 rfl hb hc rfl (toNat_aluGt B C)

/-- Settles O17: both are `Z3` instructions over the exact result, narrowed at the end. -/
theorem addMultReduce : Obligations.AddMultReduce := by
  unfold Obligations.AddMultReduce
  refine ⟨fun s d b c B C hb hc => ⟨?_, ?_⟩, fun a b c => ⟨operandFaults _, operandFaults _⟩⟩
  · exact completes_of_alu3 rfl hb hc rfl (toNat_narrow _)
  · exact completes_of_alu3 rfl hb hc rfl (toNat_narrow _)

/-- Settles O18: a `Z3` instruction whose function has a value or, on a divisor of 0, a fault. -/
theorem modRemainder : Obligations.ModRemainder := by
  unfold Obligations.ModRemainder
  refine ⟨fun s d b c B C hb hc => ⟨fun hC => ?_, fun hC => ?_⟩, fun a b c => operandFaults _⟩
  · exact completes_of_alu3 rfl hb hc (aluMod_of_ne_zero B hC) (toNat_narrow _)
  · subst hC
    exact ⟨_, alu3_of_error d hb hc (aluMod_zero B), stop_stoppedWith s _ 0⟩

/-- Settles O19: the mask of AND and OR is a reduction modulo 32768, and the complement in 15 bits a
difference from 32767. -/
theorem bitwiseMasked : Obligations.BitwiseMasked := by
  unfold Obligations.BitwiseMasked
  refine ⟨fun s d b c B C hb hc => ⟨?_, ?_⟩, fun s d b B hb => ?_,
    fun a b c => ⟨operandFaults _, operandFaults _, operandFaults _⟩⟩
  · exact completes_of_alu3 rfl hb hc rfl (toNat_aluAnd B C)
  · exact completes_of_alu3 rfl hb hc rfl (toNat_aluOr B C)
  · exact ⟨_, exec_not_of_resolve d hb, toNat_aluNot B ▸ writesReg_advance s d _ 3⟩

/-- Settles O20: an instruction that did not stop the run wrote a value of its ALU function, and every
such value is a Word, or a truth value. -/
theorem aluResultsAreWords : Obligations.AluResultsAreWords := by
  unfold Obligations.AluResultsAreWords
  intro i s t d h
  refine ⟨isWord_arithmetic_result h, ?_⟩
  rintro b c (rfl | rfl) hrun
  · exact truth_result h hrun
  · exact truth_result h hrun

end Sys2Proof.Safety
end

section
/-! PROOFS. What a step sends on the ports and does to the Output Buffer, said once, and what follows for
the line discipline and the console stream (R224, R226, R240, R267). -/

namespace Sys2Proof.Machine

variable {s : State}

theorem exec_out_of_resolve {a : Operand} {v : Cell} (ha : resolve s a = .ok v) :
    exec (.out a) s = .next (advance { s with outBuf := s.outBuf ++ [v] } 2) := by
  simp [exec, execOut, ha]

/-- What a flush sends depends on the Output Buffer alone. -/
theorem flush_ports_congr {t : State} (hp : t.ports = s.ports) (hb : t.outBuf = s.outBuf) :
    (flush t).ports = (flush s).ports := by
  rw [flush_ports, flush_ports, hp, hb]

/-- A terminal outcome flushes and sends nothing else (R259). -/
theorem terminal_ports (s : State) (k : TerminalKind) : (terminal s k).ports = (flush s).ports := by
  rcases terminal_cases s k with ⟨-, ht⟩ | ⟨-, -, ht⟩ | ⟨kept, c, -, -, ht⟩ <;> rw [ht] <;> rfl

end Sys2Proof.Machine

namespace Sys2Proof.Safety

open Sys2Proof.Machine Sys2Proof.Claims

section

variable {s t : State}

/-- The Output Buffer of `t` is empty or a stored one of `s`. -/
def FreshBuffer (s t : State) : Prop := t.outBuf = [] ∨ ∃ c ∈ s.history, t.outBuf = c.outBuf

/-- What a step does on the ports, to the run state and to the Output Buffer. -/
inductive PortEffect (s t : State) : Prop where
  /-- Nothing is sent and the core runs or waits as before. -/
  | silent (hp : t.ports = s.ports) (hr : t.runState = s.runState)
      (hb : t.outBuf = s.outBuf ∨ ∃ v, RunsOut s v)
  /-- A running core flushes: it stops, or a terminal outcome restores a snapshot. -/
  | flushed (hr : s.runState = .running) (hw : ¬ Awaiting t) (hp : t.ports = (flush s).ports)
      (hb : FreshBuffer s t)
  /-- A running core flushes and asks for a line. -/
  | requested (hr : s.runState = .running) (hw : Awaiting t)
      (hp : t.ports = (flush s).ports ++ [.lineReq]) (hb : t.outBuf = [])
  /-- A waiting core gets a line and runs. -/
  | answered (L : List Cell) (hr : Awaiting s) (hw : ¬ Awaiting t)
      (hp : t.ports = s.ports ++ [.line L]) (hb : t.outBuf = s.outBuf ∨ FreshBuffer s t)
  /-- A waiting core gets a command that stops it. -/
  | aborted (L : List Cell) (hr : Awaiting s) (hw : ¬ Awaiting t)
      (hp : t.ports = (flush (note s (.line L))).ports) (hb : t.outBuf = [])

theorem not_awaiting_of_stopped {c : Cause} (h : t.runState = .stopped c) : ¬ Awaiting t := by
  rintro ⟨d, hd⟩
  simp [h] at hd

theorem awaiting_congr (h : t.runState = s.runState) : Awaiting t ↔ Awaiting s := by
  simp [Awaiting, h]

/-! ### Instructions and steps -/

theorem portEffect_terminal (hr : s.runState = .running) (k : TerminalKind) :
    PortEffect s (terminal s k) := by
  have hp := terminal_ports s k
  rcases terminal_cases s k with ⟨-, ht⟩ | ⟨-, -, ht⟩ | ⟨kept, c, -, hs, ht⟩ <;> rw [ht] at hp ⊢
  · exact .flushed hr (not_awaiting_of_stopped rfl) hp (.inl (stop_outBuf s _ 0))
  · exact .flushed hr (not_awaiting_of_stopped rfl) hp (.inl (stop_outBuf s _ 0))
  · exact .flushed hr (not_awaiting_of_running rfl) hp (.inr ⟨c, by simp [hs], rfl⟩)

theorem portEffect_inputRequest (hr : s.runState = .running) {d : Fin 8}
    (ht : inputRequest s d = .ok t) : PortEffect s t := by
  have hw : Awaiting t := ⟨d, awaiting_of_inputRequest ht⟩
  rcases inputRequest_cases s d with ⟨-, -, he⟩ | ⟨-, -, he⟩ | ⟨-, he⟩
  · simp [he] at ht
  · obtain rfl := Except.ok.inj (he.symm.trans ht)
    exact .requested hr hw rfl (flush_outBuf s)
  · obtain rfl := Except.ok.inj (he.symm.trans ht)
    exact .requested hr hw rfl (flush_outBuf s)

theorem portEffect_exec {i : Instr} (hr : s.runState = .running) (hf : fetch s = .ok i)
    (hx : ExecShape i s t) : PortEffect s t := by
  cases hx with
  | stopped tr hc =>
    exact .flushed hr (not_awaiting_of_stopped rfl) rfl (.inl (stop_outBuf s _ _))
  | terminal k hi => exact portEffect_terminal hr k
  | request d _ hi hq ht => exact portEffect_inputRequest hr ht
  | take d c rest hi hq => exact .silent rfl rfl (.inl rfl)
  | writeReg d v n hd ho hn => exact .silent rfl rfl (.inl rfl)
  | pop d st v hi hs => exact .silent rfl rfl (.inl rfl)
  | store a b k v hi ha hb hk => exact .silent rfl rfl (.inl rfl)
  | goto p ho hn => exact .silent rfl rfl (.inl rfl)
  | push a v p hi hroom => exact .silent rfl rfl (.inl rfl)
  | ret st v hi hs => exact .silent rfl rfl (.inl rfl)
  | out a v hi ha => exact .silent rfl rfl (.inr ⟨v, hr, a, hi ▸ hf, ha⟩)

/-- The line that a command came in is sent before the stop; the script and the counter are no part of a
port. -/
theorem portEffect_abort (hr : Awaiting s) (q : List (List Cell)) (n : Nat) (L : List Cell) (c : Cause)
    (k : Nat) : PortEffect s (stop (note { s with script := q, linePolls := n } (.line L)) c k) :=
  .aborted L hr (not_awaiting_of_stopped rfl) (flush_ports_congr rfl rfl) (stop_outBuf _ c k)

theorem portEffect_rewind (hr : Awaiting s) (q : List (List Cell)) (n : Nat) (L : List Cell) (k : Nat) :
    PortEffect s (restore (note { s with script := q, linePolls := n } (.line L)) k) := by
  rcases restore_cases (note { s with script := q, linePolls := n } (.line L)) k with
    ⟨-, ht⟩ | ⟨kept, c, dropped, hs, -, ht⟩ <;> rw [ht]
  · exact portEffect_abort hr q n L _ k
  · have hc : c ∈ s.history := by
      have hs : s.history = kept ++ c :: dropped := hs
      simp [hs]
    exact .answered L hr (not_awaiting_of_running rfl) rfl (.inr (.inr ⟨c, hc, rfl⟩))

/-- Say once what a step sends. -/
theorem portEffect_of_step (h : step s = .next t) : PortEffect s t := by
  cases step_shape h with
  | fetchStop tr hr hf =>
    exact .flushed hr (not_awaiting_of_stopped rfl) rfl (.inl (stop_outBuf s _ _))
  | exec i _ hr hf hx => exact portEffect_exec hr hf hx
  | wait d hr => exact .silent rfl rfl (.inl rfl)
  | halt d q n L hr hc => exact portEffect_abort ⟨d, hr⟩ q n L _ 0
  | rewind d q n L k hr hc => exact portEffect_rewind ⟨d, hr⟩ q n L k
  | line d q n L c rest hr hl hL =>
    exact .answered L ⟨d, hr⟩ (not_awaiting_of_running rfl) rfl (.inl rfl)

/-! ### The line discipline (R240) -/

@[simp] theorem requests_append (es fs : List PortEvent) :
    requests (es ++ fs) = requests es + requests fs := List.countP_append

@[simp] theorem lines_append (es fs : List PortEvent) : lines (es ++ fs) = lines es + lines fs :=
  List.countP_append

@[simp] theorem requests_flush (s : State) : requests (flush s).ports = requests s.ports := by
  rw [flush_ports, requests_append]
  split <;> simp [requests]

@[simp] theorem lines_flush (s : State) : lines (flush s).ports = lines s.ports := by
  rw [flush_ports, lines_append]
  split <;> simp [lines]

@[simp] theorem requests_lineReq : requests [.lineReq] = 1 := rfl
@[simp] theorem lines_lineReq : lines [.lineReq] = 0 := rfl
@[simp] theorem requests_line (L : List Cell) : requests [.line L] = 0 := rfl
@[simp] theorem lines_line (L : List Cell) : lines [.line L] = 1 := rfl

theorem PortInv.of_awaiting (hw : Awaiting t) (h : requests t.ports = lines t.ports + 1) :
    PortInv t := ⟨fun _ => h, fun hn => (hn hw).elim⟩

theorem PortInv.of_not_awaiting (hw : ¬ Awaiting t) (h : requests t.ports = lines t.ports) :
    PortInv t := ⟨fun ha => (hw ha).elim, fun _ => h⟩

/-- A request opens an account that the next line closes; a flush is neither. -/
theorem PortInv.portEffect (h : PortInv s) (he : PortEffect s t) : PortInv t := by
  cases he with
  | silent hp hr hb =>
    exact ⟨fun ha => hp ▸ h.awaiting ((awaiting_congr hr).mp ha),
      fun hn => hp ▸ h.others (mt (awaiting_congr hr).mpr hn)⟩
  | flushed hr hw hp hb =>
    have := h.others (not_awaiting_of_running hr)
    exact .of_not_awaiting hw (by simp [hp, this])
  | requested hr hw hp hb =>
    have := h.others (not_awaiting_of_running hr)
    exact .of_awaiting hw (by simp [hp, this])
  | answered L hr hw hp hb =>
    have := h.awaiting hr
    exact .of_not_awaiting hw (by simp [hp, this])
  | aborted L hr hw hp hb =>
    have := h.awaiting hr
    exact .of_not_awaiting hw (by simp [hp, this])

/-! ### The console stream (R224, R226) -/

/-- A step emits nothing, or exactly the pending codes; what it leaves pending is then named. -/
theorem emission_of_portEffect (he : PortEffect s t) :
    (t.emitted = s.emitted ∧
      (t.outBuf = s.outBuf ∨ (∃ v, RunsOut s v) ∨ (Awaiting s ∧ FreshBuffer s t))) ∨
    (t.emitted = s.emitted ++ s.outBuf ∧ FreshBuffer s t) := by
  cases he with
  | silent hp hr hb => exact .inl ⟨emitted_of_ports hp, hb.imp_right .inl⟩
  | flushed hr hw hp hb => exact .inr ⟨emitted_of_flush hp, hb⟩
  | requested hr hw hp hb =>
    exact .inr ⟨(emitted_of_silent (s := flush s) hp rfl).trans (emitted_flush s), .inl hb⟩
  | answered L hr hw hp hb =>
    exact .inl ⟨emitted_of_silent hp rfl, hb.imp_right fun hfresh => .inr ⟨hr, hfresh⟩⟩
  | aborted L hr hw hp hb =>
    have hline : (note s (.line L)).emitted = s.emitted := emitted_of_silent rfl rfl
    exact .inr ⟨(emitted_of_flush hp).trans (congrArg (· ++ s.outBuf) hline), .inl hb⟩

/-- A stored Output Buffer is empty (R262), so a restore brings no code back. -/
theorem BufferInv.outBuf_of_fresh (h : BufferInv s) (hb : FreshBuffer s t) : t.outBuf = [] := by
  rcases hb with hb | ⟨c, hc, hb⟩
  · exact hb
  · exact hb.trans (h.snapshots c hc).1

end

/-- Settles O55: by what a step sends. -/
theorem portInvKept : Obligations.PortInvKept := by
  unfold Obligations.PortInvKept
  intro s t h hstep
  exact h.portEffect (portEffect_of_step hstep)

/-- Settles O45: an OUT that resolves appends its code; any other step emits the pending codes or
nothing, and what it leaves pending is empty in the first case and, while waiting, in the second. -/
theorem noCharacterLost : Obligations.NoCharacterLost := by
  unfold Obligations.NoCharacterLost
  intro s t h hstep
  refine ⟨?_, fun hno => ?_⟩
  · rintro v ⟨hr, a, hf, ha⟩
    rw [step_of_fetch hr hf, exec_out_of_resolve ha] at hstep
    cases hstep
    exact (List.append_assoc _ _ _).symm
  · rcases emission_of_portEffect (portEffect_of_step hstep) with
      ⟨he, hb | ⟨v, hv⟩ | ⟨hw, hb⟩⟩ | ⟨he, hb⟩
    · rw [he, hb]
    · exact (hno v hv).elim
    · rw [he, h.outBuf_of_fresh hb, (h.awaiting hw).2]
    · rw [he, h.outBuf_of_fresh hb, List.append_nil]

/-- Settles O46: a step emits nothing or the pending codes, after what is emitted. -/
theorem emittedOnlyGrows : Obligations.EmittedOnlyGrows := by
  unfold Obligations.EmittedOnlyGrows
  intro s t hstep
  rcases emission_of_portEffect (portEffect_of_step hstep) with ⟨he, -⟩ | ⟨he, -⟩
  · exact he ▸ List.prefix_rfl
  · exact he ▸ List.prefix_append _ _

end Sys2Proof.Safety
end

section
/-! PROOFS. The character I/O instructions and the host's line source (44_io.md R222 to R242): what each
gives, said once, and its frame. -/

namespace Sys2Proof.Machine

variable {s : State}

/-! ### IN (R232, R236) -/

theorem exec_inp_of_queued {c : Cell} {rest : List Cell} (d : Fin 8) (hq : s.inQ = c :: rest) :
    exec (.inp (.reg d)) s = .next (takeInput s d c rest) :=
  execIn_queued (.reg d) hq

theorem exec_inp_of_nil (d : Fin 8) (hq : s.inQ = []) :
    exec (.inp (.reg d)) s = settle s (inputRequest s d) := by
  simp [exec, execIn, dest, hq]

/-- The core that has flushed and asked for a line for register `d`, with the history `h` (R232). -/
def requestLine (s : State) (h : List Snapshot) (d : Fin 8) : State :=
  note { flush s with history := h, runState := .awaitLine d } .lineReq

/-- The history an input request leaves: with checkpoints, one snapshot of the flushed state more
(R232, R262). -/
def requestHistory (s : State) : List Snapshot :=
  if s.cfg.rewindEnable then s.history ++ [snapshot (flush s)] else s.history

theorem exec_inp_of_room (d : Fin 8) (hq : s.inQ = [])
    (hroom : s.cfg.rewindEnable = false ∨ s.cfg.historyDepth ≠ some s.history.length) :
    exec (.inp (.reg d)) s = .next (requestLine s (requestHistory s) d) := by
  rw [exec_inp_of_nil d hq]
  rcases inputRequest_cases s d with ⟨hr, hfull, -⟩ | ⟨hr, -, he⟩ | ⟨hr, he⟩
  · simp [hr, hfull] at hroom
  · simp [he, requestLine, requestHistory, hr]
  · rw [he, requestHistory, hr, settle_ok, ← flush_history s]
    rfl

theorem exec_inp_of_full (d : Fin 8) (hq : s.inQ = []) (hr : s.cfg.rewindEnable = true)
    (hfull : s.cfg.historyDepth = some s.history.length) :
    exec (.inp (.reg d)) s = .next (stop s .historyOverflow 0) := by
  rw [exec_inp_of_nil d hq]
  simp [inputRequest, hr, capture, hfull, raise]

/-- The snapshot of an input request: the live state with both buffers empty (R262). -/
theorem snapshot_flush_of_nil (hq : s.inQ = []) :
    snapshot (flush s) = { pc := s.pc, mem := s.mem, reg := s.regs, stack := s.stack,
                           outBuf := [], inQ := [] } := by
  simp [snapshot, hq]

/-! ### Delivery (R234, R237, R240) -/

theorem isLine_iff (L : List Cell) : isLine L = true ↔ ∀ x ∈ L, x.toNat ≤ 32767 := by
  simp [isLine]

theorem commandOf_eq_none {L : List Cell}
    (h : s.cfg.rewindEnable = true → parseCommand L = none) : commandOf s L = none := by
  unfold commandOf
  split
  · exact h ‹_›
  · rfl

theorem deliver_of_ordinary {d : Fin 8} {L rest : List Cell} {c : Cell}
    (hr : s.runState = .awaitLine d) (hl : isLine L = true) (hc : commandOf s L = none)
    (hL : L ++ [Config.newline] = c :: rest) :
    deliver s L = .next { takeInput (note s (.line L)) d c rest with runState := .running } := by
  have hc' : commandOf (note s (.line L)) L = none := hc
  simp [deliver, hr, hl, hc', completeIn_cons hL]

theorem deliver_of_not_line {d : Fin 8} {L : List Cell} (hr : s.runState = .awaitLine d)
    (hl : ¬ isLine L = true) : deliver s L = .refused .lineNotWords := by
  simp [deliver, hr, hl]

theorem deliver_of_not_awaiting (hr : ∀ d, s.runState ≠ .awaitLine d) (L : List Cell) :
    deliver s L = .refused .lineUnasked := by
  unfold deliver
  split
  · exact absurd ‹_› (hr _)
  · rfl
  · rfl

/-! ### The line source (R238, R239) -/

theorem step_of_awaiting {d : Fin 8} (hr : s.runState = .awaitLine d) :
    step s = answerRequest s := by
  simp [step, hr]

theorem answerRequest_of_script {L : List Cell} {rest : List (List Cell)}
    (hq : s.script = L :: rest) : answerRequest s = deliver { s with script := rest } L := by
  simp [answerRequest, hq]

/-- With no script the operator gives no line yet, and the counter alone moves, or some line. -/
theorem answerRequest_of_no_script (hq : s.script = []) :
    answerRequest s = .next { s with linePolls := s.linePolls + 1 } ∨
    ∃ L : List Word, answerRequest s =
      deliver { s with linePolls := s.linePolls + 1 } (L.map (·.setWidth 16)) := by
  cases ho : Config.operatorLine s.linePolls with
  | none => exact .inl (by simp [answerRequest, hq, ho])
  | some L => exact .inr ⟨L, by simp [answerRequest, hq, ho]⟩

end Sys2Proof.Machine

namespace Sys2Proof.Safety

open Sys2Proof.Machine Sys2Proof.Claims

/-- The frame of OUT: another Output Buffer, then the fall-through. -/
theorem changesOnly_outBuf_advance (s : State) (b : List Cell) (n : Nat) :
    ChangesOnly [.pc, .outBuf] s (advance { s with outBuf := b } n) := by
  intro p hp
  cases p with
  | pc => exact (hp (by simp)).elim
  | outBuf => exact (hp (by simp)).elim
  | _ => rfl

/-- The frame of an input request: the flush, then run state, history and ports. -/
theorem changesOnly_requestLine (s : State) (h : List Snapshot) (d : Fin 8) :
    ChangesOnly [.outBuf, .runState, .ports, .history] s (requestLine s h d) := by
  have hset : ChangesOnly [.outBuf, .runState, .ports, .history] (flush s) (requestLine s h d) := by
    intro p hp
    cases p with
    | runState => exact (hp (by simp)).elim
    | history => exact (hp (by simp)).elim
    | ports => exact (hp (by simp)).elim
    | _ => rfl
  exact ((changesOnly_flush s).mono (by simp)).trans hset

/-- What an input request sends: the pending codes, if any, then the request (R232). -/
theorem requestLine_ports (s : State) (h : List Snapshot) (d : Fin 8) :
    (requestLine s h d).ports =
      s.ports ++ (if s.outBuf = [] then [] else [.flush s.outBuf]) ++ [.lineReq] :=
  congrArg (· ++ [PortEvent.lineReq]) (flush_ports s)

/-- The console stream of an input request. -/
theorem emitted_requestLine (s : State) (h : List Snapshot) (d : Fin 8) :
    (requestLine s h d).emitted = s.emitted ++ s.outBuf :=
  (emitted_of_silent (s := flush s) rfl rfl).trans (emitted_flush s)

theorem changesOnly_runState (s : State) (r : RunState) :
    ChangesOnly [.runState] s { s with runState := r } := by
  intro p hp
  cases p with
  | runState => exact (hp (by simp)).elim
  | _ => rfl

theorem changesOnly_linePolls (s : State) (n : Nat) :
    ChangesOnly [.linePolls] s { s with linePolls := n } := by
  intro p hp
  cases p with
  | linePolls => exact (hp (by simp)).elim
  | _ => rfl

/-- The frame of a delivery that completes the IN: the line on the port, the code taken, the core
running. -/
theorem changesOnly_delivered (s : State) (d : Fin 8) (L rest : List Cell) (c : Cell) :
    ChangesOnly [.pc, .reg d, .inQ, .runState, .ports] s
      { takeInput (note s (.line L)) d c rest with runState := .running } :=
  (((changesOnly_note s (.line L)).mono (by simp)).trans
    ((changesOnly_takeInput _ d c rest).mono (by simp))).trans
    ((changesOnly_runState _ .running).mono (by simp))

/-- Settles O27: OUT appends and falls through; the operand faults are those of every instruction. -/
theorem outAppendsCode : Obligations.OutAppendsCode := by
  unfold Obligations.OutAppendsCode
  refine ⟨fun s a v ha => ?_, fun a => operandFaults (.out a)⟩
  exact ⟨_, exec_out_of_resolve ha, rfl, rfl, changesOnly_outBuf_advance s _ 2⟩

/-- Settles O28: IN with a queued code takes it and falls through. -/
theorem inTakesQueuedCode : Obligations.InTakesQueuedCode := by
  unfold Obligations.InTakesQueuedCode
  refine ⟨fun s d c rest hq => ?_, fun a => operandFaults (.inp a)⟩
  exact ⟨_, exec_inp_of_queued d hq, readReg_writeReg_same s d c, rfl, rfl,
    changesOnly_takeInput s d c rest⟩

/-- Settles O29: the request finds room in the history, or needs none, or overflows it. -/
theorem inRequestsLine : Obligations.InRequestsLine := by
  unfold Obligations.InRequestsLine
  intro s d hq
  refine ⟨fun hroom => ?_, fun hr hfull => ?_⟩
  · refine ⟨_, exec_inp_of_room d hq hroom, rfl, flush_outBuf s, emitted_requestLine s _ d,
      ⟨_, requestLine_ports s _ d, rfl⟩, fun hr => ?_, fun hr => ?_,
      changesOnly_requestLine s _ d⟩
    · rw [← snapshot_flush_of_nil hq]
      exact if_pos hr
    · exact if_neg (by simp [hr])
  · exact ⟨_, exec_inp_of_full d hq hr hfull, stop_stoppedWith s _ 0⟩

/-- Settles O30: the line is no command, so it completes the IN. -/
theorem deliverCompletesIn : Obligations.DeliverCompletesIn := by
  unfold Obligations.DeliverCompletesIn
  intro s d L c rest hr hwords hcmd hL
  exact ⟨_, deliver_of_ordinary hr ((isLine_iff L).mpr hwords) (commandOf_eq_none hcmd) hL,
    readReg_writeReg_same _ d c, rfl, rfl, rfl, rfl, changesOnly_delivered s d L rest c⟩

/-- Settles O31: the port looks at the run state, then at the codes. -/
theorem deliveriesRefused : Obligations.DeliveriesRefused := by
  unfold Obligations.DeliveriesRefused
  intro s L
  refine ⟨?_, fun hn => deliver_of_not_awaiting (fun d hd => hn ⟨d, hd⟩) L⟩
  rintro ⟨d, hr⟩ ⟨x, hx, hlarge⟩
  exact deliver_of_not_line hr fun hl => absurd ((isLine_iff L).mp hl x hx) (by omega)

/-- Settles O32: a waiting core is answered by the script, then by the operator or not yet. -/
theorem lineSourceOrder : Obligations.LineSourceOrder := by
  unfold Obligations.LineSourceOrder
  rintro s ⟨d, hr⟩
  rw [step_of_awaiting hr]
  refine ⟨fun L rest hq => answerRequest_of_script hq, fun hq => ?_⟩
  rcases answerRequest_of_no_script hq with h | ⟨L, h⟩
  · exact .inl ⟨_, h, changesOnly_linePolls s _⟩
  · exact .inr ⟨_, L, h⟩

end Sys2Proof.Safety
end

section
/-! PROOFS. The checkpoint/rewind controller (60_exceptions.md R258 to R271): the checkpoint invariant
over a step, and that a restore finds its snapshot once one is captured. -/

namespace Sys2Proof.Machine

variable {s t : State}

/-- An accepted input request, with the history it leaves (R232). -/
theorem eq_requestLine_of_inputRequest {d : Fin 8} (h : inputRequest s d = .ok t) :
    t = requestLine s (requestHistory s) d := by
  rcases inputRequest_cases s d with ⟨-, -, he⟩ | ⟨hr, -, he⟩ | ⟨hr, he⟩
  · simp [he] at h
  · rw [requestHistory, if_pos hr]
    exact Except.ok.inj (h.symm.trans he)
  · rw [requestHistory, if_neg (by simp [hr]), ← flush_history s]
    exact Except.ok.inj (h.symm.trans he)

theorem requestHistory_of_enabled (hr : s.cfg.rewindEnable = true) :
    requestHistory s = s.history ++ [snapshot (flush s)] := if_pos hr

theorem requestHistory_of_disabled (hr : s.cfg.rewindEnable = false) :
    requestHistory s = s.history := if_neg (by simp [hr])

/-- A core at an IN with an empty queue requests a line, or its capture overflows the history (R262). -/
theorem step_of_request {d : Fin 8} (hr : s.runState = .running) (hq : s.inQ = [])
    (hf : fetch s = .ok (.inp (.reg d))) :
    step s = .next (requestLine s (requestHistory s) d) ∨
    step s = .next (stop s .historyOverflow 0) := by
  rw [step_of_fetch hr hf]
  by_cases hfull : s.cfg.rewindEnable = true ∧ s.cfg.historyDepth = some s.history.length
  · obtain ⟨hre, hfull⟩ := hfull
    exact .inr (exec_inp_of_full d hq hre hfull)
  · exact .inl (exec_inp_of_room d hq (by simpa [or_iff_not_imp_left] using hfull))

/-- A fetch has faults of its own only (R121, R122). -/
theorem fetch_error_cause_ne {tr : Trap} (h : fetch s = .error tr) : tr.cause ≠ .historyExhausted := by
  unfold fetch fetchAt at h
  split at h
  · split at h
    · cases h
    · rename_i e _
      cases h
      cases e <;> simp [rejectTrap]
  · cases h
    simp

/-- A terminal outcome stops with `HistoryExhausted` only when there is no snapshot (R259). -/
theorem history_nil_of_terminal_exhausted {k : TerminalKind}
    (h : (terminal s k).runState = .stopped .historyExhausted) : s.history = [] := by
  rcases terminal_cases s k with ⟨-, ht⟩ | ⟨-, hs, -⟩ | ⟨kept, c, -, -, ht⟩
  · rw [ht] at h
    cases k <;> cases h
  · exact hs
  · rw [ht] at h
    cases h

theorem history_nil_of_exec_exhausted {i : Instr} (hr : s.runState = .running)
    (hx : ExecShape i s t) (h : t.runState = .stopped .historyExhausted) : s.history = [] := by
  cases hx with
  | stopped tr hc =>
    have hcause : tr.cause = .historyExhausted := by simpa using h
    simp [hcause, Cause.ofInstr] at hc
  | terminal k hi => exact history_nil_of_terminal_exhausted h
  | request d _ hi hq ht =>
    obtain rfl := eq_requestLine_of_inputRequest ht
    cases h
  | _ => cases hr.symm.trans h

/-- A running core stops with `HistoryExhausted` only when there is no snapshot. -/
theorem history_nil_of_step_exhausted (hr : s.runState = .running) (hstep : step s = .next t)
    (h : t.runState = .stopped .historyExhausted) : s.history = [] := by
  cases hf : fetch s with
  | ok i =>
    have hexec : exec i s = .next t := (step_of_fetch hr hf).symm.trans hstep
    exact history_nil_of_exec_exhausted hr (exec_shape hexec) h
  | error tr =>
    obtain rfl := Host.Outcome.next.inj ((step_of_fetch_error hr hf).symm.trans hstep)
    exact absurd (by simpa using h) (fetch_error_cause_ne hf)

end Sys2Proof.Machine

namespace Sys2Proof.Safety

open Sys2Proof.Machine

section

variable {s t : State}

/-! ### The checkpoint invariant -/

/-- A core that does not wait owes what its stored snapshots show; dropping some keeps it. -/
theorem CheckpointInv.of_not_awaiting (h : CheckpointInv s) (hw : ¬ Awaiting t)
    (hcfg : t.cfg = s.cfg) (hh : t.history ⊆ s.history) : CheckpointInv t where
  disabled hr := List.subset_nil.mp (h.disabled (hcfg ▸ hr) ▸ hh)
  atIn d hd := (hw ⟨d, hd⟩).elim
  snapshots c hc := h.snapshots c (hh hc)
  current _ ha := (hw ha).elim

theorem CheckpointInv.of_running (h : CheckpointInv s) (hr : t.runState = .running)
    (hcfg : t.cfg = s.cfg) (hh : t.history = s.history) : CheckpointInv t :=
  h.of_not_awaiting (not_awaiting_of_running hr) hcfg (hh ▸ List.Subset.refl _)

theorem CheckpointInv.stop (h : CheckpointInv s) (c : Cause) (info : Nat) :
    CheckpointInv (stop s c info) :=
  h.of_not_awaiting (not_awaiting_of_stopped rfl) (by simp) (by simp)

/-- A restored core runs, with the older snapshots left (R265). -/
theorem CheckpointInv.resume (h : CheckpointInv s) {kept dropped : List Snapshot} {c : Snapshot}
    (hs : s.history = kept ++ c :: dropped) :
    CheckpointInv (resume { s with history := kept } c) :=
  h.of_not_awaiting (not_awaiting_of_running rfl) rfl (hs ▸ List.subset_append_left kept _)

theorem CheckpointInv.restore (h : CheckpointInv s) (n : Nat) : CheckpointInv (restore s n) := by
  rcases restore_cases s n with ⟨-, ht⟩ | ⟨kept, c, dropped, hs, -, ht⟩
  · exact ht ▸ h.stop _ _
  · exact ht ▸ h.resume hs

theorem CheckpointInv.terminal (h : CheckpointInv s) (k : TerminalKind) :
    CheckpointInv (terminal s k) := by
  rcases terminal_cases s k with ⟨-, ht⟩ | ⟨-, -, ht⟩ | ⟨kept, c, -, hs, ht⟩
  · exact ht ▸ h.stop _ _
  · exact ht ▸ h.stop _ _
  · refine ht ▸ h.of_not_awaiting (not_awaiting_of_running rfl) (flush_cfg s) ?_
    exact hs ▸ List.subset_append_left kept _

/-- The snapshot that a request captures stands at its IN and is the live state while it waits (R232,
R262). -/
theorem CheckpointInv.requestLine (h : CheckpointInv s) {d : Fin 8}
    (hf : fetch s = .ok (.inp (.reg d))) :
    CheckpointInv (requestLine s (requestHistory s) d) where
  disabled hr := by
    have hr : s.cfg.rewindEnable = false := flush_cfg s ▸ hr
    exact (requestHistory_of_disabled hr).trans (h.disabled hr)
  atIn d' hd := by
    obtain rfl : d = d' := RunState.awaitLine.inj hd
    exact (fetch_congr (flush_mem s) (flush_pc s)).trans hf
  snapshots c hc := by
    have hc : c ∈ requestHistory s := hc
    cases hr : s.cfg.rewindEnable with
    | false => exact h.snapshots c (requestHistory_of_disabled hr ▸ hc)
    | true =>
      rw [requestHistory_of_enabled hr] at hc
      rcases List.mem_append.mp hc with hc | hc
      · exact h.snapshots c hc
      · obtain rfl := List.mem_singleton.mp hc
        exact ⟨d, (fetch_congr (flush_mem s) (flush_pc s)).trans hf⟩
  current hr _ := by
    have hr : s.cfg.rewindEnable = true := flush_cfg s ▸ hr
    have hh : (Machine.requestLine s (requestHistory s) d).history =
        s.history ++ [snapshot (flush s)] := requestHistory_of_enabled hr
    rw [hh, List.getLast?_concat]
    rfl

/-- Only an input request makes a running core wait; every other instruction keeps the history or, at
a terminal outcome, drops its last snapshot. -/
theorem CheckpointInv.execShape {i : Instr} (h : CheckpointInv s) (hr : s.runState = .running)
    (hf : fetch s = .ok i) (hx : ExecShape i s t) : CheckpointInv t := by
  cases hx with
  | stopped tr hc => exact h.stop _ _
  | terminal k hi => exact h.terminal k
  | request d _ hi hq ht => exact eq_requestLine_of_inputRequest ht ▸ h.requestLine (hi ▸ hf)
  | _ => exact h.of_running hr rfl rfl

/-- The script, the counter and the transactions are no part of a checkpoint. -/
theorem CheckpointInv.lineTaken (h : CheckpointInv s) (q : List (List Cell)) (n : Nat)
    (L : List Cell) : CheckpointInv (note { s with script := q, linePolls := n } (.line L)) :=
  { h with }

theorem CheckpointInv.stepShape (h : CheckpointInv s) (hx : StepShape s t) : CheckpointInv t := by
  cases hx with
  | fetchStop tr hr hf => exact h.stop _ _
  | exec i _ hr hf hx => exact h.execShape hr hf hx
  | wait d hr => exact { h with }
  | halt d q n L hr hc => exact (h.lineTaken q n L).stop _ _
  | rewind d q n L k hr hc => exact (h.lineTaken q n L).restore k
  | line d q n L c rest hr hl hL => exact h.of_running rfl rfl rfl

/-! ### A restore always finds a snapshot (R266) -/

/-- A restored snapshot stands at an IN with an empty queue, so the next step captures again. -/
theorem CheckpointInv.hasCheckpoint_resume (h : CheckpointInv s) {c : Snapshot}
    (hc : c ∈ s.history) (u : State) : HasCheckpoint (Machine.resume u c) :=
  .inr ⟨rfl, rfl, h.snapshots c hc⟩

/-- With a snapshot in the history, a step restores it or keeps one. -/
theorem CheckpointInv.hasCheckpoint_of_step (h : CheckpointInv s) (hne : s.history ≠ [])
    (hstep : step s = .next t) : Stopped t ∨ HasCheckpoint t := by
  cases step_effect hstep with
  | stopped p q n c info => exact .inl ⟨c, rfl⟩
  | restored p q n kept dropped c hs => exact .inr (h.hasCheckpoint_resume (by simp [hs]) _)
  | requested d hist hq hh =>
    have hhist : hist ≠ [] := by rcases hh with rfl | rfl <;> simp [hne]
    exact .inr (.inl hhist)
  | waited d hr => exact .inr (.inl hne)
  | delivered d q n L c rest hr hl hL => exact .inr (.inl hne)
  | ran i _ hr hf hu => exact .inr (.inl (hu.history.symm ▸ hne))

theorem hasCheckpoint_requestLine (hr : s.cfg.rewindEnable = true) (d : Fin 8) :
    HasCheckpoint (requestLine s (requestHistory s) d) := by
  refine .inl (show requestHistory s ≠ [] from ?_)
  simp [requestHistory_of_enabled hr]

end

/-- Settles O54: by the inversion of a step. A request, the one way to wait, captures the live state at
its IN, and a stop or a restore ends the waiting. -/
theorem checkpointInvKept : Obligations.CheckpointInvKept := by
  unfold Obligations.CheckpointInvKept
  intro s t h hstep
  exact h.stepShape (step_shape hstep)

/-- Settles O38: a snapshot is kept, or restored at its IN; a core about to capture one does so, or
overflows the history, and neither is `HistoryExhausted`. -/
theorem checkpointNeverExhausted : Obligations.CheckpointNeverExhausted := by
  unfold Obligations.CheckpointNeverExhausted
  intro s t hre h hcp hstep
  rcases hcp with hne | ⟨hr, hq, d, hf⟩
  · exact ⟨h.hasCheckpoint_of_step hne hstep,
      fun hr hx => hne (history_nil_of_step_exhausted hr hstep hx)⟩
  · rcases step_of_request hr hq hf with hs | hs
    · obtain rfl := Host.Outcome.next.inj (hs.symm.trans hstep)
      exact ⟨.inr (hasCheckpoint_requestLine hre d), nofun⟩
    · obtain rfl := Host.Outcome.next.inj (hs.symm.trans hstep)
      exact ⟨.inl ⟨_, rfl⟩, nofun⟩

end Sys2Proof.Safety
end

section
/-! PROOFS. The operator commands (60_exceptions.md R268 to R271, R284), and what a restore gives back
(R265, R266, R269). -/

namespace Sys2Proof.Machine

variable {s : State}

/-! ### The grammar of the commands (R268) -/

/-- The value of digit codes as the library writes it, least significant digit first. -/
theorem decimalValue_eq_ofDigits (ds : List Cell) :
    decimalValue ds = Nat.ofDigits 10 (ds.reverse.map fun c => c.toNat - 48) := by
  rw [decimalValue, Nat.ofDigits_eq_foldr, List.foldr_map, List.foldr_reverse]
  simp [Nat.add_comm]

theorem parseCommand_eq_halt (L : List Cell) : parseCommand L = some .halt ↔ L = haltCodes := by
  unfold parseCommand
  split_ifs <;> simp_all

/-- Whether every code is a digit. -/
theorem all_isDigit_iff (ds : List Cell) :
    ds.all isDigit = true ↔ ∀ c ∈ ds, 48 ≤ c.toNat ∧ c.toNat ≤ 57 := by
  simp [isDigit]

theorem parseCommand_rewindCodes {ds : List Cell} (hne : ds ≠ [])
    (hd : ∀ c ∈ ds, 48 ≤ c.toNat ∧ c.toNat ≤ 57) :
    parseCommand (rewindCodes ++ ds) = some (.rewind (decimalValue ds)) := by
  have htake : (rewindCodes ++ ds).take 7 = rewindCodes := rfl
  have hdrop : (rewindCodes ++ ds).drop 7 = ds := rfl
  have hhalt : rewindCodes ++ ds ≠ haltCodes := by simp [rewindCodes, haltCodes]
  rw [parseCommand, if_neg hhalt, htake, hdrop, if_pos ⟨rfl, hne, (all_isDigit_iff ds).mpr hd⟩]

/-- `rewind n` is the line `rewind`, one space and digit codes of value `n`. -/
theorem parseCommand_eq_rewind (L : List Cell) (n : Nat) :
    parseCommand L = some (.rewind n) ↔ ∃ ds : List Cell, ds ≠ [] ∧
      (∀ c ∈ ds, 48 ≤ c.toNat ∧ c.toNat ≤ 57) ∧ L = rewindCodes ++ ds ∧ n = decimalValue ds := by
  constructor
  · intro h
    unfold parseCommand at h
    split_ifs at h with hhalt hrewind
    · cases h
    · obtain ⟨htake, hne, hd⟩ := hrewind
      cases h
      exact ⟨L.drop 7, hne, (all_isDigit_iff _).mp hd,
        by rw [← htake, List.take_append_drop], rfl⟩
  · rintro ⟨ds, hne, hd, rfl, rfl⟩
    exact parseCommand_rewindCodes hne hd

theorem commandOf_of_enabled (hr : s.cfg.rewindEnable = true) (L : List Cell) :
    commandOf s L = parseCommand L := if_pos hr

/-- The codes of a `rewind` line are Words, so the port accepts it. -/
theorem isLine_of_rewind {L : List Cell} {n : Nat} (h : parseCommand L = some (.rewind n)) :
    isLine L = true := by
  obtain ⟨ds, -, hd, rfl, -⟩ := (parseCommand_eq_rewind L n).mp h
  refine (isLine_iff _).mpr fun x hx => ?_
  rcases List.mem_append.mp hx with hx | hx
  · exact (isLine_iff rewindCodes).mp (by decide) x hx
  · have := hd x hx
    omega

/-! ### Commands and restores -/

/-- A command delivered to a waiting core is handled with the line on the port (R237). -/
theorem deliver_of_command {d : Fin 8} {L : List Cell} {c : Command}
    (hr : s.runState = .awaitLine d) (hl : isLine L = true) (hre : s.cfg.rewindEnable = true)
    (hc : parseCommand L = some c) :
    deliver s L = .next (handleCommand (note s (.line L)) c) := by
  have hc' : commandOf (note s (.line L)) L = some c := (commandOf_of_enabled hre L).trans hc
  simp [deliver, hr, hl, hc']

/-- An IN that captured a snapshot and waits appended the live state, its buffers empty (R262). -/
theorem history_of_exec_inp {t : State} {d : Fin 8} (hq : s.inQ = [])
    (hre : s.cfg.rewindEnable = true) (h : exec (.inp (.reg d)) s = .next t)
    (hw : t.runState = .awaitLine d) : t.history = s.history ++ [snapshot (flush s)] := by
  by_cases hfull : s.cfg.historyDepth = some s.history.length
  · obtain rfl := Host.Outcome.next.inj ((exec_inp_of_full d hq hre hfull).symm.trans h)
    cases hw
  · obtain rfl := Host.Outcome.next.inj ((exec_inp_of_room d hq (.inr hfull)).symm.trans h)
    exact requestHistory_of_enabled hre

/-- The capture of a state just restored from a snapshot with empty buffers is that snapshot. -/
theorem snapshot_flush_resume {c : Snapshot} (hc : c.outBuf = [] ∧ c.inQ = []) :
    snapshot (flush (resume s c)) = c := by
  cases c
  obtain ⟨rfl, rfl⟩ := hc
  exact snapshot_flush_of_nil rfl

/-- The IN re-executed after a restore requests again, with an equal snapshot captured (R266). -/
theorem step_resume {d : Fin 8} {c : Snapshot} (hf : fetchAt c.mem c.pc = .ok (.inp (.reg d)))
    (hc : c.outBuf = [] ∧ c.inQ = []) (hre : s.cfg.rewindEnable = true)
    (hroom : s.cfg.historyDepth ≠ some s.history.length) :
    step (resume s c) = .next (requestLine (resume s c) (s.history ++ [c]) d) := by
  have hfetch : fetch (resume s c) = .ok (.inp (.reg d)) := hf
  have hhist : requestHistory (resume s c) = s.history ++ [c] := by
    rw [requestHistory_of_enabled (s := resume s c) hre, snapshot_flush_resume hc, resume_history]
  rw [step_of_fetch rfl hfetch, ← hhist]
  exact exec_inp_of_room d rfl (.inr hroom)

end Sys2Proof.Machine

namespace Sys2Proof.Safety

open Sys2Proof.Machine

/-- A restore right after a delivered line emits nothing: the line puts nothing on the console. -/
theorem resume_note_line_restoredTo (s : State) (L : List Cell) (h : List Snapshot) (c : Snapshot) :
    RestoredTo s (resume { note s (.line L) with history := h } c) h c [] where
  pc := rfl
  mem := rfl
  regs := rfl
  stack := rfl
  outBuf := rfl
  inQ := rfl
  runState := rfl
  history := rfl
  emitted := (emitted_of_silent rfl rfl).trans (List.append_nil _).symm
  faultPc := rfl
  faultWord := rfl
  cfg := rfl
  script := rfl
  polls := rfl

/-- The history less the snapshots a restore takes off has room for one more (R266). -/
theorem BoundInv.room_of_split {s : State} (h : BoundInv s) {kept dropped : List Snapshot}
    {c : Snapshot} (hs : s.history = kept ++ c :: dropped) :
    s.cfg.historyDepth ≠ some kept.length := by
  intro hd
  have hle := h.history _ hd
  simp only [hs, List.length_append, List.length_cons] at hle
  omega

/-- Settles O33: by what the parser accepts. -/
theorem commandGrammar : Obligations.CommandGrammar := by
  unfold Obligations.CommandGrammar
  refine fun s L => ⟨fun hr => commandOf_eq_none (by simp [hr]), fun hr => ?_, fun n hr => ?_⟩
  · rw [commandOf_of_enabled hr]
    exact parseCommand_eq_halt L
  · rw [commandOf_of_enabled hr, parseCommand_eq_rewind]
    simp only [decimalValue_eq_ofDigits]
    rfl

/-- Settles O34: a command is handled with its line on the port, which the console does not show. -/
theorem operatorCommands : Obligations.OperatorCommands := by
  unfold Obligations.OperatorCommands
  rintro s ⟨d, hr⟩ hre
  refine ⟨?_, fun L n hcmd => ⟨fun h c dropped hs hlen => ?_, fun hshort => ?_⟩⟩
  · have hcmd := (parseCommand_eq_halt haltCodes).mpr rfl
    exact ⟨_, deliver_of_command hr (by decide) hre hcmd, (stop_stoppedWith _ _ 0).of_note_line⟩
  · subst hlen
    refine ⟨_, deliver_of_command hr (isLine_of_rewind hcmd) hre hcmd, ?_⟩
    rw [handleCommand, restore_of_split (s := note s (.line L)) hs]
    exact resume_note_line_restoredTo s L h c
  · refine ⟨_, deliver_of_command hr (isLine_of_rewind hcmd) hre hcmd, ?_⟩
    rw [handleCommand, restore_of_short (s := note s (.line L)) hshort]
    exact (stop_stoppedWith _ _ n).of_note_line

/-- Settles O35: without commands every line of Words completes the IN. -/
theorem noCommandsWithoutRewind : Obligations.NoCommandsWithoutRewind := by
  unfold Obligations.NoCommandsWithoutRewind
  intro s d L hr hre hwords
  obtain ⟨c, rest, hL⟩ := line_cons L
  obtain ⟨t, ht, hreg, hq, -, hrun, -, hframe⟩ :=
    deliverCompletesIn s d L c rest hr hwords (by simp [hre]) hL
  exact ⟨t, ht, hrun, by rw [hreg, hq, ← hL], hframe .history (by simp)⟩

/-- Settles O36: the restored core stands at an IN with an empty queue and room for the capture, and its
buffers are empty as the snapshot's were. -/
theorem restoredInRequestsAgain : Obligations.RestoredInRequestsAgain := by
  unfold Obligations.RestoredInRequestsAgain
  rintro s n h dropped c hbuf hbound hcp hs rfl
  have hc : c ∈ s.history := by simp [hs]
  obtain ⟨d, hf⟩ := hcp.snapshots c hc
  have hre : s.cfg.rewindEnable = true := by
    by_contra hoff
    simp [hcp.disabled (by simpa using hoff)] at hc
  have hempty := hbuf.snapshots c hc
  have hstep := step_resume (s := { s with history := h }) hf hempty hre (hbound.room_of_split hs)
  have hemitted : s.emitted ++ c.outBuf = s.emitted := by rw [hempty.1, List.append_nil]
  rw [restore_of_split hs]
  exact ⟨d, _, hstep, rfl, rfl, flush_pc _, flush_mem _, flush_regs _, flush_stack _,
    (emitted_requestLine _ _ d).trans hemitted⟩

/-- Settles O37: the last snapshot of the waiting core is the live state of the IN, and a restore gives
a snapshot back whatever the live state is. -/
theorem captureRestoreRoundTrip : Obligations.CaptureRestoreRoundTrip := by
  unfold Obligations.CaptureRestoreRoundTrip
  intro s t u d h dropped c hq hre hx hw hcap hu
  obtain ⟨rfl, hc⟩ := List.append_inj' (hcap.symm.trans (history_of_exec_inp hq hre hx hw)) rfl
  obtain rfl : c = snapshot (flush s) := List.singleton_inj.mp hc
  rw [restore_of_split hu]
  exact ⟨flush_pc s, flush_mem s, flush_regs s, flush_stack s, hq.symm, rfl⟩

end Sys2Proof.Safety
end

section
/-! PROOFS. Where a step exists (R35, R234, R303): the run state decides, and in AWAIT_LINE the line
the host delivers. -/

namespace Sys2Proof.Machine

variable {s : State}

/-- A running core executes what it fetched, or stops on the fault of its fetch (R120, R303). -/
theorem step_isNext_of_running (hr : s.runState = .running) : ∃ t, step s = .next t := by
  cases hf : fetch s with
  | ok i =>
    rw [step_of_fetch hr hf]
    exact exec_isNext i s
  | error tr => exact ⟨_, step_of_fetch_error hr hf⟩

/-- `STOPPED` is final (R35). -/
theorem step_of_stopped {c : Cause} (hr : s.runState = .stopped c) :
    step s = .fault (.runStopped c) := by
  simp [step, hr]

/-- The port takes every line of Words that a request asked for (R234, R237). -/
theorem deliver_isNext {d : Fin 8} {L : List Cell} (hr : s.runState = .awaitLine d)
    (hl : isLine L = true) : ∃ t, deliver s L = .next t := by
  cases hc : commandOf s L with
  | some c =>
    have hc' : commandOf (note s (.line L)) L = some c := hc
    exact ⟨handleCommand (note s (.line L)) c, by simp [deliver, hr, hl, hc']⟩
  | none =>
    obtain ⟨c, rest, hL⟩ := line_cons L
    exact ⟨_, deliver_of_ordinary hr hl hc hL⟩

/-- Whatever the operator types, the port takes it: the lines are Words (R234, U7). -/
theorem isLine_words (L : List Word) : isLine (L.map (·.setWidth 16)) = true := by
  rw [isLine_iff]
  intro x hx
  obtain ⟨w, -, rfl⟩ := List.mem_map.mp hx
  have hw := w.isLt
  rw [BitVec.toNat_setWidth_of_le (by decide)]
  omega

/-- A waiting core steps unless the script's next line is refused (R234, R239). -/
theorem answerRequest_isNext {d : Fin 8} (hr : s.runState = .awaitLine d)
    (hscript : ∀ L ∈ s.script.head?, isLine L = true) : ∃ t, answerRequest s = .next t := by
  cases hq : s.script with
  | cons L rest =>
    rw [answerRequest_of_script hq]
    exact deliver_isNext hr (hscript L (by simp [hq]))
  | nil =>
    rcases answerRequest_of_no_script hq with h | ⟨L, h⟩
    · exact ⟨_, h⟩
    · rw [h]
      exact deliver_isNext hr (isLine_words L)

end Sys2Proof.Machine

namespace Sys2Proof.Safety

open Sys2Proof.Machine

/-- Settles O41: by the three run states. -/
theorem whereStepsExist : Obligations.WhereStepsExist := by
  unfold Obligations.WhereStepsExist
  refine fun s => ⟨step_isNext_of_running, ?_, fun _ => step_of_stopped⟩
  rintro ⟨d, hr⟩ hscript
  rw [step_of_awaiting hr]
  exact answerRequest_isNext hr hscript

end Sys2Proof.Safety
end

section
/-! PROOFS. The image load (R62, R291): which images are refused, and what the memory of an accepted
one reads. -/

namespace Sys2Proof.Machine

/-! ### The memory of an image -/

/-- A pair of bytes always fits 16 bits, so no bit is lost (R62). -/
theorem imageWord_toNat (lo hi : BitVec 8) :
    (imageWord lo hi).toNat = lo.toNat + 256 * hi.toNat := by
  have hlo := lo.isLt
  have hhi := hi.isLt
  rw [imageWord, BitVec.toNat_ofNat]
  omega

/-- The first pair is the cell at the first address; a pair of zeros has no entry and reads 0. -/
theorem imageCells_read_head (a : Nat) (lo hi : BitVec 8) (rest : List (BitVec 8)) :
    (imageCells a (lo :: hi :: rest)).read a = imageWord lo hi := by
  rw [imageCells]
  split
  · rename_i h0
    rw [h0]
    exact Memory.read_below (Safety.imageCells_above (a + 1) rest)
  · simp [Memory.read]

/-- Past the first address a read finds the image of the bytes after the first pair. -/
theorem imageCells_read_tail {a b : Nat} (hab : a ≠ b) (lo hi : BitVec 8)
    (rest : List (BitVec 8)) :
    (imageCells a (lo :: hi :: rest)).read b = (imageCells (a + 1) rest).read b := by
  rw [imageCells]
  split
  · rfl
  · simp [Memory.read, hab]

/-- Cell `i` of the image holds its `i`-th pair of bytes. -/
theorem imageCells_read_pair (a : Nat) (bytes : List (BitVec 8)) (i : Nat)
    (h : 2 * i + 1 < bytes.length) :
    (imageCells a bytes).read (a + i) = imageWord bytes[2 * i] bytes[2 * i + 1] := by
  match bytes, i, h with
  | lo :: hi :: rest, 0, _ => exact imageCells_read_head a lo hi rest
  | lo :: hi :: rest, i + 1, h =>
    have hrest : 2 * i + 1 < rest.length := by
      simp only [List.length_cons] at h
      omega
    calc (imageCells a (lo :: hi :: rest)).read (a + (i + 1))
      _ = (imageCells (a + 1) rest).read (a + (i + 1)) := imageCells_read_tail (by omega) lo hi rest
      _ = (imageCells (a + 1) rest).read (a + 1 + i) := by rw [Nat.add_right_comm, Nat.add_assoc]
      _ = imageWord rest[2 * i] rest[2 * i + 1] := imageCells_read_pair (a + 1) rest i hrest

/-- Every cell after the image is 0. -/
theorem imageCells_read_after (a : Nat) (bytes : List (BitVec 8)) {b : Nat}
    (h : 2 * a + bytes.length ≤ 2 * b) : (imageCells a bytes).read b = 0 := by
  match bytes with
  | lo :: hi :: rest =>
    simp only [List.length_cons] at h
    rw [imageCells_read_tail (by omega)]
    exact imageCells_read_after (a + 1) rest (by omega)
  | [_] => rfl
  | [] => rfl

/-! ### Which images are accepted -/

theorem load_of_odd {bytes : List (BitVec 8)} (h : bytes.length % 2 = 1) :
    load bytes = .error .oddLength := by
  simp [load, h]

theorem load_of_large {bytes : List (BitVec 8)} (heven : bytes.length % 2 = 0)
    (hlarge : 65536 < bytes.length) : load bytes = .error .tooLarge := by
  have : Config.memSize < bytes.length / 2 := show 32768 < _ by omega
  simp [load, heven, this]

theorem load_of_fits {bytes : List (BitVec 8)} (heven : bytes.length % 2 = 0)
    (hfits : bytes.length ≤ 65536) : load bytes = .ok (imageCells 0 bytes) := by
  have : ¬ Config.memSize < bytes.length / 2 := show ¬ 32768 < _ by omega
  simp [load, heven, this]

end Sys2Proof.Machine

namespace Sys2Proof.Safety

open Sys2Proof.Machine

/-- Settles O57: an accepted image is read back pair by pair, by induction on its bytes. -/
theorem loadPlacesImage : Obligations.LoadPlacesImage := by
  unfold Obligations.LoadPlacesImage
  refine fun bytes => ⟨load_of_odd, load_of_large, fun heven hfits => ?_⟩
  have hload := load_of_fits heven hfits
  refine ⟨_, hload, load_wf hload, fun i hi => ?_, fun a ha => ?_⟩
  · rw [← imageWord_toNat, ← imageCells_read_pair 0 bytes i hi, Nat.zero_add]
  · exact imageCells_read_after 0 bytes (by omega)

end Sys2Proof.Safety
end
